-- ==== Sys2Proof/Config.lean ====
section
/-!
DEFINITION. The parameters of 00_scope.md R6, each a named field with the value the spec gives, and the
free values: what the spec takes as inputs of a Step and does not choose (R7).
The literals are the source's, unaudited (92_eei_decisions.md D2): log 17.
-/
namespace Sys2Proof.Config

/-! ## Parameters (R6) -/

/-- `NREG`: general registers V0..VF. -/
abbrev nreg : Nat := 16
/-- `REG_BITS`: width of each V register. -/
abbrev regBits : Nat := 8
/-- `FLAG_REG`: the register written as carry, borrow and collision flag (VF). -/
abbrev flagReg : Fin nreg := 15
/-- `PC_BITS`: program counter width. -/
abbrev pcBits : Nat := 16
/-- `I_BITS`: address register width (not masked to 12). -/
abbrev iBits : Nat := 16
/-- `MEM_SIZE`: bytes of memory. -/
abbrev memSize : Nat := 4096
/-- `PROG_BASE`: load address of the program and reset pc. -/
abbrev progBase : Nat := 512
/-- `PROG_MAX`: largest program image in bytes, 3584 (R6: `= MEM_SIZE − PROG_BASE`). -/
abbrev progMax : Nat := memSize - progBase
/-- `FONT_BASE`: address of the font table. -/
abbrev fontBase : Nat := 0
/-- `FONT_SIZE`: bytes of the font table. -/
abbrev fontSize : Nat := 80
/-- `GLYPH_BYTES`: bytes per font glyph, the multiplier of LD F. -/
abbrev glyphBytes : Nat := 5
/-- `STACK_DEPTH`: call-stack capacity in entries. -/
abbrev stackDepth : Nat := 24
/-- `STACK_BITS`: width of each stack entry. -/
abbrev stackBits : Nat := 16
/-- `GRID_W`: pixel-grid columns. -/
abbrev gridW : Nat := 64
/-- `GRID_H`: pixel-grid rows. -/
abbrev gridH : Nat := 32
/-- `GRID_CELLS`: cells of the pixel grid, 2048 (10_state.md R32: 64 columns × 32 rows). -/
abbrev gridCells : Nat := gridW * gridH
/-- `TIMER_BITS`: width of the delay and sound timers. -/
abbrev timerBits : Nat := 8
/-- `TICK_PERIOD`: 1 second, in nanoseconds (R16): the elapsed time that gates one decrement. -/
abbrev tickPeriod : Nat := 1000000000
/-- `TONE_OFF`: 250 milliseconds, in nanoseconds: the elapsed time after which the tone is stopped. -/
abbrev toneOff : Nat := 250000000
/-- `NKEYS`: keys of the input source. -/
abbrev nkeys : Nat := 16
/-- `SPRITE_W`: sprite columns (bits per sprite byte). -/
abbrev spriteW : Nat := 8
/-- `SPRITE_HMAX`: largest sprite height. -/
abbrev spriteHMax : Nat := 15

/-! ## Free values (R7, log 1)

Each is applied to the number of Running Steps completed before, so that every Step for which no input
is laid down draws values of its own. They have no body that a proof could see. -/

/-- Nanoseconds from the time sample before to this Step's sample (R16). A natural number, so that
successive samples never decrease (log 2). -/
opaque freeElapsed : Nat → Nat
/-- The random byte a Step's RND reads (R15): any value 0..255. -/
opaque freeRandomByte : Nat → BitVec 8
/-- The keys for which `is_key_down` answers true in a Step (R13). -/
opaque freeKeysDown : Nat → List (Fin nkeys)
/-- The answer of `block_for_key` in a Step (R13): a key, or none for shutdown. -/
opaque freeKeyWait : Nat → Option (Fin nkeys)
/-- Whether the renderer answers ok to a Step's `draw` (R12). -/
opaque freeDrawOk : Nat → Bool

end Sys2Proof.Config
end

