-- ==== Sys2Proof/Word.lean ====
section
/-!
DEFINITION. The value types: bytes, register values, instruction words, addresses as fields, register and key
numbers, and the pixel grid. All values are unsigned (00_scope.md R8). A width that is a parameter of R6 is
written by its name; a width that the instruction format or the memory fixes (R50, R80 to R82) is a number.
-/
namespace Sys2Proof

/-- A memory cell's content, the field kk and the random byte: 8 bits (20_memory.md R50, 30_encoding.md R81,
00_scope.md R15). -/
abbrev Byte := BitVec 8

/-- A general register's content: REG_BITS bits (10_state.md R20). -/
abbrev RegVal := BitVec Config.regBits

/-- An instruction word: 16 bits (30_encoding.md R80). -/
abbrev Word := BitVec 16

/-- The field nnn: an unsigned 12-bit address (30_encoding.md R82). -/
abbrev Addr12 := BitVec 12

/-- The program counter: PC_BITS bits (10_state.md R24). -/
abbrev Pc := BitVec Config.pcBits

/-- A return address on the call stack: STACK_BITS bits (10_state.md R27). -/
abbrev RetAddr := BitVec Config.stackBits

/-- A register number, 0..15 (10_state.md R21). -/
abbrev RegId := Fin Config.nreg

/-- A key number, 0..15 (00_scope.md R13). -/
abbrev Key := Fin Config.nkeys

/-- A sprite height, 0..15 (30_encoding.md R82). -/
abbrev Height := Fin (Config.spriteHMax + 1)

/-- The pixel grid: one bit a cell, cell (column c, row r) is bit r × 64 + c; a set bit is a lit pixel
(10_state.md R32; log 18). -/
abbrev Grid := BitVec Config.gridCells

end Sys2Proof
end

