-- ==== Sys2Proof/Syntax.lean ====
section
/-!
DEFINITION. The instructions: one constructor for each of the 35 rows of spec/opcode_table.json
(30_encoding.md R84 to R90). `Invalid(w)` is no instruction: see `Decoded` in Decode.lean.
-/
namespace Sys2Proof

/-- A decoded operation, its operands taken out of the word's fields x, y, n, kk, nnn (R81). -/
inductive Instr where
  /-- 00E0 `CLS` -/
  | cls
  /-- 00EE `RET` -/
  | ret
  /-- 0nnn `SYS nnn` -/
  | sys (nnn : Addr12)
  /-- 1nnn `JP nnn` -/
  | jp (nnn : Addr12)
  /-- 2nnn `CALL nnn` -/
  | call (nnn : Addr12)
  /-- 3xkk `SE Vx, kk` -/
  | seImm (x : RegId) (kk : Byte)
  /-- 4xkk `SNE Vx, kk` -/
  | sneImm (x : RegId) (kk : Byte)
  /-- 5xy0 `SE Vx, Vy` -/
  | seReg (x y : RegId)
  /-- 6xkk `LD Vx, kk` -/
  | ldImm (x : RegId) (kk : Byte)
  /-- 7xkk `ADD Vx, kk` -/
  | addImm (x : RegId) (kk : Byte)
  /-- 8xy0 `LD Vx, Vy` -/
  | ldReg (x y : RegId)
  /-- 8xy1 `OR Vx, Vy` -/
  | orReg (x y : RegId)
  /-- 8xy2 `AND Vx, Vy` -/
  | andReg (x y : RegId)
  /-- 8xy3 `XOR Vx, Vy` -/
  | xorReg (x y : RegId)
  /-- 8xy4 `ADD Vx, Vy` -/
  | addReg (x y : RegId)
  /-- 8xy5 `SUB Vx, Vy` -/
  | subReg (x y : RegId)
  /-- 8xy6 `SHR Vx, Vy` -/
  | shr (x y : RegId)
  /-- 8xy7 `SUBN Vx, Vy` -/
  | subnReg (x y : RegId)
  /-- 8xyE `SHL Vx, Vy` -/
  | shl (x y : RegId)
  /-- 9xy0 `SNE Vx, Vy` -/
  | sneReg (x y : RegId)
  /-- Annn `LD I, nnn` -/
  | ldI (nnn : Addr12)
  /-- Bnnn `JP V0, nnn` -/
  | jpV0 (nnn : Addr12)
  /-- Cxkk `RND Vx, kk` -/
  | rnd (x : RegId) (kk : Byte)
  /-- Dxyn `DRW Vx, Vy, n` -/
  | drw (x y : RegId) (n : Height)
  /-- Ex9E `SKP Vx` -/
  | skp (x : RegId)
  /-- ExA1 `SKNP Vx` -/
  | sknp (x : RegId)
  /-- Fx07 `LD Vx, DT` -/
  | ldFromDt (x : RegId)
  /-- Fx0A `LD Vx, K` -/
  | ldKey (x : RegId)
  /-- Fx15 `LD DT, Vx` -/
  | ldToDt (x : RegId)
  /-- Fx18 `LD ST, Vx` -/
  | ldToSt (x : RegId)
  /-- Fx1E `ADD I, Vx` -/
  | addI (x : RegId)
  /-- Fx29 `LD F, Vx` -/
  | ldF (x : RegId)
  /-- Fx33 `LD B, Vx` -/
  | ldB (x : RegId)
  /-- Fx55 `LD [I], Vx` -/
  | storeRegs (x : RegId)
  /-- Fx65 `LD Vx, [I]` -/
  | loadRegs (x : RegId)
deriving DecidableEq, Repr

end Sys2Proof
end

