-- ==== Sys2Proof/WellFormed.lean ====
section
/-!
DEFINITION. Which terms of Instr stand for an instruction word. Every operand's range is in its type;
what is left is that SYS does not name the two words that are CLS and RET (30_encoding.md R84).
-/
namespace Sys2Proof

/-- The nnn of the word 00E0, which is CLS. -/
def clsNnn : Addr12 := 0x0E0

/-- The nnn of the word 00EE, which is RET. -/
def retNnn : Addr12 := 0x0EE

/-- "every other nnn is SYS nnn" (R84). -/
def Instr.wellFormed : Instr → Bool
  | .sys nnn => nnn != clsNnn && nnn != retNnn
  | _ => true

end Sys2Proof
end

