-- ==== Sys2Proof/Decode.lean ====
section
/-!
DEFINITION. The decoder, total on every word and on any bytes (30_encoding.md R83 to R93), and the encoder,
written from the same opcode map. Decoding never reads state.
-/
namespace Sys2Proof

/-- What the decoder makes of a word: one of the 35 operations, or "an explicit invalid variant
carrying the raw word" (R83). -/
inductive Decoded where
  | op (i : Instr)
  | invalid (w : Word)
deriving DecidableEq, Repr

/-- Why a list of bytes does not begin with an instruction. -/
inductive DecodeError where
  /-- fewer than the two bytes of a word -/
  | truncated
  /-- the word is one of the invalid words of R91 -/
  | invalidWord (w : Word)
deriving DecidableEq, Repr

/-! ## Fields (R81) -/

/-- `f`: w[15:12]. -/
def fieldF (w : Word) : BitVec 4 := w.extractLsb' 12 4
/-- `nnn`: w[11:0]. -/
def fieldNnn (w : Word) : Addr12 := w.extractLsb' 0 12
/-- w[11:8], as four bits. -/
def nibbleX (w : Word) : BitVec 4 := w.extractLsb' 8 4
/-- w[7:4], as four bits. -/
def nibbleY (w : Word) : BitVec 4 := w.extractLsb' 4 4
/-- `n`: w[3:0]. -/
def fieldN (w : Word) : BitVec 4 := w.extractLsb' 0 4
/-- `kk`: w[7:0]. -/
def fieldKk (w : Word) : Byte := w.extractLsb' 0 8

/-- The register a four-bit field names (R21): every value of the field names one. -/
def regOf (b : BitVec 4) : RegId := ⟨b.toNat, Nat.lt_of_lt_of_le b.isLt (by decide)⟩
/-- The sprite height a four-bit field gives (R82). -/
def heightOf (b : BitVec 4) : Height := ⟨b.toNat, Nat.lt_of_lt_of_le b.isLt (by decide)⟩
/-- `x`: the register of w[11:8]. -/
def fieldX (w : Word) : RegId := regOf (nibbleX w)
/-- `y`: the register of w[7:4]. -/
def fieldY (w : Word) : RegId := regOf (nibbleY w)

/-! ## The opcode map -/

/-- Family 0 (R84). -/
def decode0 (w : Word) : Decoded :=
  if fieldNnn w = clsNnn then .op .cls
  else if fieldNnn w = retNnn then .op .ret
  else .op (.sys (fieldNnn w))

/-- Family 8, selected by n (R87). -/
def decode8 (w : Word) : Decoded :=
  match fieldN w with
  | 0x0#4 => .op (.ldReg (fieldX w) (fieldY w))
  | 0x1#4 => .op (.orReg (fieldX w) (fieldY w))
  | 0x2#4 => .op (.andReg (fieldX w) (fieldY w))
  | 0x3#4 => .op (.xorReg (fieldX w) (fieldY w))
  | 0x4#4 => .op (.addReg (fieldX w) (fieldY w))
  | 0x5#4 => .op (.subReg (fieldX w) (fieldY w))
  | 0x6#4 => .op (.shr (fieldX w) (fieldY w))
  | 0x7#4 => .op (.subnReg (fieldX w) (fieldY w))
  | 0xE#4 => .op (.shl (fieldX w) (fieldY w))
  | _ => .invalid w

/-- Family E, selected by kk (R88). -/
def decodeE (w : Word) : Decoded :=
  match fieldKk w with
  | 0x9E#8 => .op (.skp (fieldX w))
  | 0xA1#8 => .op (.sknp (fieldX w))
  | _ => .invalid w

/-- Family F, selected by kk (R89). -/
def decodeF (w : Word) : Decoded :=
  match fieldKk w with
  | 0x07#8 => .op (.ldFromDt (fieldX w))
  | 0x0A#8 => .op (.ldKey (fieldX w))
  | 0x15#8 => .op (.ldToDt (fieldX w))
  | 0x18#8 => .op (.ldToSt (fieldX w))
  | 0x1E#8 => .op (.addI (fieldX w))
  | 0x29#8 => .op (.ldF (fieldX w))
  | 0x33#8 => .op (.ldB (fieldX w))
  | 0x55#8 => .op (.storeRegs (fieldX w))
  | 0x65#8 => .op (.loadRegs (fieldX w))
  | _ => .invalid w

/-- `Decode(w)` (R83 to R89): the family, then its sub-dispatch key. -/
def decodeWord (w : Word) : Decoded :=
  match fieldF w with
  | 0x0#4 => decode0 w
  | 0x1#4 => .op (.jp (fieldNnn w))
  | 0x2#4 => .op (.call (fieldNnn w))
  | 0x3#4 => .op (.seImm (fieldX w) (fieldKk w))
  | 0x4#4 => .op (.sneImm (fieldX w) (fieldKk w))
  | 0x5#4 => if fieldN w = 0x0#4 then .op (.seReg (fieldX w) (fieldY w)) else .invalid w
  | 0x6#4 => .op (.ldImm (fieldX w) (fieldKk w))
  | 0x7#4 => .op (.addImm (fieldX w) (fieldKk w))
  | 0x8#4 => decode8 w
  | 0x9#4 => if fieldN w = 0x0#4 then .op (.sneReg (fieldX w) (fieldY w)) else .invalid w
  | 0xA#4 => .op (.ldI (fieldNnn w))
  | 0xB#4 => .op (.jpV0 (fieldNnn w))
  | 0xC#4 => .op (.rnd (fieldX w) (fieldKk w))
  | 0xD#4 => .op (.drw (fieldX w) (fieldY w) (heightOf (fieldN w)))
  | 0xE#4 => decodeE w
  | 0xF#4 => decodeF w
  | _ => .invalid w

/-! ## Bytes: "big-endian, high byte first" (20_memory.md R58) -/

/-- The word of two fetched bytes, `(hi << 8) | lo`. -/
def wordOfBytes (hi lo : Byte) : Word := hi ++ lo
/-- The byte of a word that lies at the lower address. -/
def hiByte (w : Word) : Byte := w.extractLsb' 8 8
/-- The byte of a word that lies at the higher address. -/
def loByte (w : Word) : Byte := w.extractLsb' 0 8

/-- The instruction at the front of a list of bytes, with the bytes after it. -/
def decode : List Byte → Except DecodeError (Instr × List Byte)
  | hi :: lo :: rest =>
    match decodeWord (wordOfBytes hi lo) with
    | .op i => .ok (i, rest)
    | .invalid w => .error (.invalidWord w)
  | _ => .error .truncated

/-- The instruction the decoder reads where the opcode table's bits are `w`: the first word is w's low
16 bits, of which the table gives `nbits`, laid out high byte first. -/
def decodeTableWord (nbits w : Nat) : Option Instr :=
  let first : Word := BitVec.ofNat 16 (w % 2 ^ nbits)
  match decode [hiByte first, loByte first] with
  | .ok (i, _) => some i
  | .error _ => none

/-! ## The encoder -/

/-- The four-bit field that names a register. -/
def nibOfReg (r : RegId) : BitVec 4 := BitVec.ofNat 4 r.val
/-- The four-bit field that gives a sprite height. -/
def nibOfHeight (n : Height) : BitVec 4 := BitVec.ofNat 4 n.val
/-- A word of the form fnnn. -/
def wordNnn (f : BitVec 4) (nnn : Addr12) : Word := f ++ nnn
/-- A word of the form fxkk. -/
def wordXkk (f : BitVec 4) (x : RegId) (kk : Byte) : Word := f ++ nibOfReg x ++ kk
/-- A word of the form fxyn. -/
def wordXyn (f : BitVec 4) (x y : RegId) (n : BitVec 4) : Word := f ++ nibOfReg x ++ nibOfReg y ++ n

/-- The word of an instruction (R84 to R89). -/
def encode : Instr → Word
  | .cls => 0x00E0#16
  | .ret => 0x00EE#16
  | .sys nnn => wordNnn 0x0 nnn
  | .jp nnn => wordNnn 0x1 nnn
  | .call nnn => wordNnn 0x2 nnn
  | .seImm x kk => wordXkk 0x3 x kk
  | .sneImm x kk => wordXkk 0x4 x kk
  | .seReg x y => wordXyn 0x5 x y 0x0
  | .ldImm x kk => wordXkk 0x6 x kk
  | .addImm x kk => wordXkk 0x7 x kk
  | .ldReg x y => wordXyn 0x8 x y 0x0
  | .orReg x y => wordXyn 0x8 x y 0x1
  | .andReg x y => wordXyn 0x8 x y 0x2
  | .xorReg x y => wordXyn 0x8 x y 0x3
  | .addReg x y => wordXyn 0x8 x y 0x4
  | .subReg x y => wordXyn 0x8 x y 0x5
  | .shr x y => wordXyn 0x8 x y 0x6
  | .subnReg x y => wordXyn 0x8 x y 0x7
  | .shl x y => wordXyn 0x8 x y 0xE
  | .sneReg x y => wordXyn 0x9 x y 0x0
  | .ldI nnn => wordNnn 0xA nnn
  | .jpV0 nnn => wordNnn 0xB nnn
  | .rnd x kk => wordXkk 0xC x kk
  | .drw x y n => wordXyn 0xD x y (nibOfHeight n)
  | .skp x => wordXkk 0xE x 0x9E
  | .sknp x => wordXkk 0xE x 0xA1
  | .ldFromDt x => wordXkk 0xF x 0x07
  | .ldKey x => wordXkk 0xF x 0x0A
  | .ldToDt x => wordXkk 0xF x 0x15
  | .ldToSt x => wordXkk 0xF x 0x18
  | .addI x => wordXkk 0xF x 0x1E
  | .ldF x => wordXkk 0xF x 0x29
  | .ldB x => wordXkk 0xF x 0x33
  | .storeRegs x => wordXkk 0xF x 0x55
  | .loadRegs x => wordXkk 0xF x 0x65

/-- The two bytes of an instruction, in the order they lie in memory. -/
def encodeBytes (i : Instr) : List Byte := [hiByte (encode i), loByte (encode i)]

end Sys2Proof
end

