-- ==== Sys2Proof/Machine/Font.lean ====
section
/-!
DEFINITION. The font table (20_memory.md R54) and the unloaded memory: what every address reads as before
a program is copied in and nothing was written (R53, R56).
-/
namespace Sys2Proof.Machine

/-- The 16 glyphs of R54, glyph d at addresses 5d to 5d + 4. -/
def fontGlyphs : List (List Byte) :=
  [[0xF0, 0x90, 0x90, 0x90, 0xF0], [0x20, 0x60, 0x20, 0x20, 0x70],
   [0xF0, 0x10, 0xF0, 0x80, 0xF0], [0xF0, 0x10, 0xF0, 0x10, 0xF0],
   [0x90, 0x90, 0xF0, 0x10, 0x10], [0xF0, 0x80, 0xF0, 0x10, 0xF0],
   [0xF0, 0x80, 0xF0, 0x90, 0xF0], [0xF0, 0x10, 0x20, 0x40, 0x40],
   [0xF0, 0x90, 0xF0, 0x90, 0xF0], [0xF0, 0x90, 0xF0, 0x10, 0xF0],
   [0xF0, 0x90, 0xF0, 0x90, 0x90], [0xE0, 0x90, 0xE0, 0x90, 0xE0],
   [0xF0, 0x80, 0x80, 0x80, 0xF0], [0xE0, 0x90, 0x90, 0x90, 0xE0],
   [0xF0, 0x80, 0xF0, 0x80, 0xF0], [0xF0, 0x80, 0xF0, 0x80, 0x80]]

/-- Byte k of the font table: byte k mod 5 of glyph k div 5. -/
def fontByte (k : Nat) : Byte :=
  (fontGlyphs.getD (k / Config.glyphBytes) []).getD (k % Config.glyphBytes) 0

/-- What an address reads as where memory lists nothing: the font table at 0..79, and 0 elsewhere
(R53; the 0 is the spec's own D4: log 5). -/
def unloadedByte (a : Nat) : Byte :=
  if Config.fontBase ≤ a ∧ a < Config.fontBase + Config.fontSize then fontByte (a - Config.fontBase) else 0

end Sys2Proof.Machine
end

