-- ==== Sys2Proof/Machine/State.lean ====
section
/-!
DEFINITION. The machine's state as plain data: everything 10_state.md gives the core, the inputs of the
coming Steps and the events emitted; the faults and the refusals; the state after reset.
-/
namespace Sys2Proof.Machine

/-- An event emitted on an output port, in the order the rules emit them (00_scope.md R12, R14, R17). -/
inductive Event where
  /-- tone generator `start_tone()` -/
  | toneStart
  /-- tone generator `stop_tone()` -/
  | toneStop
  /-- renderer `clear()` -/
  | renderClear
  /-- renderer `draw(grid)`: the grid by value (20_memory.md R62) -/
  | renderDraw (grid : Grid)
deriving DecidableEq, Repr

/-- What the world gives one Step (00_scope.md R7): the core does not choose any of it (log 1). -/
structure StepInput where
  /-- nanoseconds since the time sample before (R16; log 2) -/
  elapsed : Nat
  /-- the byte RND reads (R15) -/
  randomByte : Byte
  /-- the keys for which `is_key_down` answers true (R13; log 22) -/
  keysDown : List Key
  /-- the answer of `block_for_key`: a key, or `none` for shutdown (R13) -/
  keyWait : Option Key
  /-- whether the renderer answers ok to `draw` (R12) -/
  drawOk : Bool
deriving DecidableEq, Repr

/-- What every fault of an instruction records beside its cause (60_exceptions.md R191): the fetch address,
the instruction word (absent where the fetch itself faulted), and the events emitted up to the
fault, which "stand" (R201; log 10, log 11). -/
structure FaultSite where
  pc : Pc
  word : Option Word
  events : List Event
deriving DecidableEq, Repr

/-- The eight fatal faults of 60_exceptions.md R190. Every one "terminates the run": the spec names each, so
stopping is the machine's own behaviour and safe. -/
inductive Fault where
  /-- raised by `step` for a word that decodes to Invalid(w) (R192); safe -/
  | invalidInstruction (site : FaultSite)
  /-- raised by RET with an empty call stack (R193); safe -/
  | stackUnderflow (site : FaultSite)
  /-- raised by CALL with 24 entries on the call stack (R194); safe -/
  | stackOverflow (site : FaultSite)
  /-- raised by the fetch, DRW, LD B, LD [I] and LD Vx,[I] at an address of 4096 or more (R195); safe -/
  | memoryRange (site : FaultSite) (addr : Nat)
  /-- raised by DRW for a set sprite bit at a cell index of 2048 or more (R196); safe -/
  | gridRange (site : FaultSite) (cell : Nat)
  /-- raised by DRW when the renderer answers fail (R197); safe -/
  | renderFailure (site : FaultSite)
  /-- raised by Reset for a program image longer than 3584 bytes (R198); safe -/
  | programTooLarge (len : Nat)
  /-- raised by SKP and SKNP when Vx is 16 or more (R199, the spec's own D10); safe (log 9) -/
  | keyRange (site : FaultSite) (value : Nat)
deriving DecidableEq, Repr

/-- Why the model gives no meaning. -/
inductive Refusal where
  /-- raised by an arm of exec whose instruction has no meaning yet; no arm is left so; safe -/
  | notModelled (mnemonic : String)
deriving DecidableEq, Repr

/-- The core status (10_state.md R33). Halted and Faulted are terminal. -/
inductive Status where
  | running
  | halted
  | faulted (record : Fault)
deriving DecidableEq, Repr

/-- Memory as a list of (address, byte) pairs, addresses strictly rising, none equal to what an unlisted
address reads as (Machine/Ops.lean, `Memory.wf`). -/
abbrev Memory := List Host.Cell

/-- The machine state. -/
structure State where
  /-- V0..VF (R20) -/
  v : Vector RegVal Config.nreg
  /-- the program counter (R24) -/
  pc : Pc
  /-- the address register I (R26) -/
  i : BitVec Config.iBits
  /-- the call stack, oldest entry first, the top last (R27) -/
  stack : List RetAddr
  /-- the delay timer DT (R29) -/
  dt : BitVec Config.timerBits
  /-- the sound timer ST (R30) -/
  st : BitVec Config.timerBits
  /-- memory, as the bytes that differ from the unloaded memory (R31) -/
  mem : Memory
  /-- the pixel grid (R32) -/
  grid : Grid
  /-- the core status (R33) -/
  status : Status
  /-- last_tick, in nanoseconds (R34) -/
  lastTick : Nat
  /-- every event emitted since Reset, oldest first (00_scope.md R17; log 16) -/
  events : List Event
  /-- the most recent time sample, in nanoseconds (00_scope.md R16; log 2) -/
  clock : Nat
  /-- the inputs laid down for the coming Steps, the next Step's first (log 1) -/
  inputs : List StepInput
  /-- how many Running Steps were completed: it picks a Step's free input where none is laid down (log 1) -/
  cycles : Nat
deriving DecidableEq, Repr

/-- `Reset` with the empty program at time 0 (70_reset_and_hazards.md R230, R232; log 3, 4, 5, 6): memory
lists nothing, so every byte reads as the unloaded memory, the font table and zeros. -/
def State.reset : State where
  v := Vector.replicate Config.nreg 0
  pc := BitVec.ofNat Config.pcBits Config.progBase
  i := 0
  stack := []
  dt := 0
  st := 0
  mem := []
  grid := 0
  status := .running
  lastTick := 0
  events := []
  clock := 0
  inputs := []
  cycles := 0

end Sys2Proof.Machine
end

