-- ==== Sys2Proof/Machine/Ops.lean ====
section
/-!
DEFINITION. The named operations over memory, registers, the call stack, the pixel grid and the ports, and
the one way a fault is raised and entered. Every meaning is written over these.
-/
namespace Sys2Proof.Machine

/-! ## Memory (20_memory.md R50 to R53) -/

/-- The byte a memory holds at an address. -/
def Memory.read : Memory → Nat → Byte
  | [], a => unloadedByte a
  | (b, w) :: rest, a => if a = b then w else Memory.read rest a

/-- A memory with one byte replaced, in canonical form again: a byte equal to what an unlisted address
reads as is not listed. -/
def Memory.write : Memory → Nat → Byte → Memory
  | [], a, v => if v = unloadedByte a then [] else [(a, v)]
  | (b, w) :: rest, a, v =>
    if a < b then (if v = unloadedByte a then (b, w) :: rest else (a, v) :: (b, w) :: rest)
    else if a = b then (if v = unloadedByte a then rest else (a, v) :: rest)
    else (b, w) :: Memory.write rest a v

/-- Bytes copied to a, a + 1, ... -/
def Memory.writeAll (m : Memory) (a : Nat) : List Byte → Memory
  | [] => m
  | b :: bs => Memory.writeAll (m.write a b) (a + 1) bs

/-- Every listed address lies in memory and every listed byte differs from the unloaded memory's. -/
def Memory.cellsOk (m : Memory) : Bool :=
  m.all fun c => decide (c.1 < Config.memSize) && c.2 != unloadedByte c.1

/-- The listed addresses strictly rise. -/
def Memory.rising : Memory → Bool
  | [] => true
  | [_] => true
  | (a, _) :: (b, w) :: rest => decide (a < b) && Memory.rising ((b, w) :: rest)

/-- The canonical form of memory: equal memories are equal lists. -/
def Memory.wf (m : Memory) : Bool := m.cellsOk && m.rising

/-! ## Registers: one operation a field -/

/-- `V[r]`. -/
def State.reg (s : State) (r : RegId) : RegVal := s.v[r.val]
/-- `V[r] <- b`: no register is hardwired (10_state.md R22). -/
def State.setReg (s : State) (r : RegId) (b : RegVal) : State := { s with v := s.v.set r.val b }
/-- `V[0], V[1], ..` from a list; a register past its end keeps its value. -/
def State.setRegs (s : State) (bs : List RegVal) : State :=
  { s with v := Vector.ofFn fun r => bs.getD r.val (s.reg r) }
/-- `pc <- a`. -/
def State.setPc (s : State) (a : Pc) : State := { s with pc := a }
/-- `I <- a`. -/
def State.setI (s : State) (a : BitVec Config.iBits) : State := { s with i := a }
/-- The call stack replaced. -/
def State.setStack (s : State) (l : List RetAddr) : State := { s with stack := l }
/-- `DT <- b`. -/
def State.setDt (s : State) (b : BitVec Config.timerBits) : State := { s with dt := b }
/-- `ST <- b`. -/
def State.setSt (s : State) (b : BitVec Config.timerBits) : State := { s with st := b }
/-- Memory replaced. -/
def State.setMem (s : State) (m : Memory) : State := { s with mem := m }
/-- The pixel grid replaced. -/
def State.setGrid (s : State) (g : Grid) : State := { s with grid := g }
/-- `status <- x` (10_state.md R33). -/
def State.setStatus (s : State) (x : Status) : State := { s with status := x }
/-- `emit e`: the event joins the ordered list (00_scope.md R10, R17). -/
def State.emit (s : State) (e : Event) : State := { s with events := s.events ++ [e] }

/-- The address of the instruction after the next word: what a taken skip gives and what fetch gives
(R25, the mod 2^16 is the spec's own D20: log 13). -/
def nextPc (a : Pc) : Pc := a + 2

/-- A skip: past exactly one 2-byte word (40_control_flow.md R119). -/
def State.skipIf (s : State) (b : Bool) : State := s.setPc (if b then nextPc s.pc else s.pc)

/-! ## The inputs of a Step (00_scope.md R7; log 1) -/

/-- The free input of the Step taken after n completed ones: nothing constrains it. -/
def StepInput.free (n : Nat) : StepInput where
  elapsed := Config.freeElapsed n
  randomByte := Config.freeRandomByte n
  keysDown := Config.freeKeysDown n
  keyWait := Config.freeKeyWait n
  drawOk := Config.freeDrawOk n

/-- The input of the Step being taken: the one laid down for it, else a free one. -/
def State.input (s : State) : StepInput := s.inputs.headD (.free s.cycles)

/-- The Step is over: its input is used up. -/
def State.endCycle (s : State) : State := { s with inputs := s.inputs.tail, cycles := s.cycles + 1 }

/-- `is_key_down(k)` (R13). -/
def State.isKeyDown (s : State) (k : Key) : Bool := s.input.keysDown.contains k

/-! ## Faults (60_exceptions.md R190 to R203)

An instruction raises a fault by answering it; the Step then answers `Fault(record)`, and what the
instruction wrote before is unobservable (R201; log 10). -/

/-- What a fault of instruction `i` records: `ipc`, which is pc − 2 while the instruction executes (R25),
the word, and the events that stand (R191; log 11). -/
def State.faultSite (s : State) (i : Instr) : FaultSite where
  pc := s.pc - 2
  word := some (encode i)
  events := s.events

/-- An instruction's outcome: its next state, or the fault it raised. -/
def settle : Except Fault State → Host.Outcome State Fault Refusal
  | .ok t => .next t
  | .error f => .fault f

/-- The site of a fault: PROGRAM_TOO_LARGE has none (R191). -/
def Fault.site : Fault → Option FaultSite
  | .invalidInstruction site => some site
  | .stackUnderflow site => some site
  | .stackOverflow site => some site
  | .memoryRange site _ => some site
  | .gridRange site _ => some site
  | .renderFailure site => some site
  | .programTooLarge _ => none
  | .keyRange site _ => some site

/-- The record's `code` (R190; the numbers are the spec's own D11). -/
def Fault.code : Fault → Nat
  | .invalidInstruction _ => 1
  | .stackUnderflow _ => 2
  | .stackOverflow _ => 3
  | .memoryRange _ _ => 4
  | .gridRange _ _ => 5
  | .renderFailure _ => 6
  | .programTooLarge _ => 7
  | .keyRange _ _ => 8

/-- The record's `pc` (R191). -/
def Fault.pc (f : Fault) : Option Pc := f.site.map (·.pc)

/-- The record's `word` (R191). -/
def Fault.word (f : Fault) : Option Word := f.site.bind (·.word)

/-- The record's `info` (R191): address, cell index, register value or image length. -/
def Fault.info : Fault → Option Nat
  | .memoryRange _ addr => some addr
  | .gridRange _ cell => some cell
  | .programTooLarge len => some len
  | .keyRange _ value => some value
  | _ => none

/-- Fault entry: the status becomes Faulted(record), the events emitted before the fault stand, and
there is no vector, no saved state and no mode change (R201; log 10). -/
def State.enterFault (s : State) (f : Fault) : State :=
  { s with status := .faulted f, events := (f.site.map (·.events)).getD s.events }

/-! ## Checked accesses (20_memory.md R51, R52) -/

/-- `MemRead(addr, 1)`. -/
def memRead (site : FaultSite) (m : Memory) (a : Nat) : Except Fault Byte :=
  if a < Config.memSize then .ok (m.read a) else .error (.memoryRange site a)

/-- `MemWrite(addr, 1, b)`. -/
def memWrite (site : FaultSite) (m : Memory) (a : Nat) (b : Byte) : Except Fault Memory :=
  if a < Config.memSize then .ok (m.write a b) else .error (.memoryRange site a)

/-- The bytes at a, a + 1, .., in ascending order (R59). -/
def loadBytes (site : FaultSite) (m : Memory) : Nat → Nat → Except Fault (List Byte)
  | _, 0 => .ok []
  | a, n + 1 => do
    let b ← memRead site m a
    let bs ← loadBytes site m (a + 1) n
    return b :: bs

/-- Bytes written at a, a + 1, .., in ascending order (R59). -/
def storeBytes (site : FaultSite) (m : Memory) (a : Nat) : List Byte → Except Fault Memory
  | [] => .ok m
  | b :: bs => do
    let m' ← memWrite site m a b
    storeBytes site m' (a + 1) bs

/-! ## The call stack (10_state.md R28) -/

/-- A program counter as a stack entry; PC_BITS and STACK_BITS are both 16, so nothing changes. -/
def toEntry (a : Pc) : RetAddr := a.setWidth Config.stackBits

/-- A stack entry as a program counter, likewise. -/
def ofEntry (a : RetAddr) : Pc := a.setWidth Config.pcBits

/-- `Push(a)`: raises STACK_OVERFLOW when 24 entries are held (log 23). -/
def push (site : FaultSite) (l : List RetAddr) (a : RetAddr) : Except Fault (List RetAddr) :=
  if l.length < Config.stackDepth then .ok (l ++ [a]) else .error (.stackOverflow site)

/-- `Pop()`: the top entry and the entries under it; raises STACK_UNDERFLOW when there is none. -/
def pop (site : FaultSite) (l : List RetAddr) : Except Fault (RetAddr × List RetAddr) :=
  match l.getLast? with
  | some a => .ok (a, l.dropLast)
  | none => .error (.stackUnderflow site)

/-! ## The pixel grid (10_state.md R32, 43_display.md R165) -/

/-- `Grid[c]`: whether cell c is lit. -/
def Grid.lit (g : Grid) (c : Nat) : Bool := g.getLsbD c

/-- `Grid[c] <- not Grid[c]`. -/
def Grid.flip (g : Grid) (c : Nat) : Grid := g ^^^ BitVec.twoPow Config.gridCells c

/-- The cell of sprite row `row` and column `col` of a sprite drawn at (vx, vy), computed without wrap. -/
def cellIndex (vx vy : RegVal) (row col : Nat) : Nat :=
  (vy.toNat + row) * Config.gridW + (vx.toNat + col)

/-- Bit `col` of a sprite byte, column 0 the most significant. -/
def spriteBit (b : Byte) (col : Nat) : Bool := b.getLsbD (Config.spriteW - 1 - col)

/-- The grid and whether a lit cell was hit, while a sprite is composited. -/
structure Canvas where
  grid : Grid
  hit : Bool
deriving DecidableEq, Repr

/-- One set sprite bit at cell c: a hit where it is lit, and the cell inverted; raises GRID_RANGE at an
index of 2048 or more. -/
def drawCell (site : FaultSite) (c : Nat) (k : Canvas) : Except Fault Canvas :=
  if c < Config.gridCells then
    .ok { grid := Grid.flip k.grid c, hit := k.hit || Grid.lit k.grid c }
  else .error (.gridRange site c)

/-- One sprite row, most significant bit first; a clear bit is not even located. -/
def drawRow (site : FaultSite) (vx vy : RegVal) (row : Nat) (b : Byte) (k : Canvas) : Except Fault Canvas :=
  (List.range Config.spriteW).foldlM
    (fun k col => if spriteBit b col then drawCell site (cellIndex vx vy row col) k else .ok k) k

/-- The sprite of n rows at address a, one row read and composited at a time (43_display.md R167). -/
def drawSprite (site : FaultSite) (m : Memory) (a : Nat) (vx vy : RegVal) (n : Nat) (k : Canvas) :
    Except Fault Canvas :=
  (List.range n).foldlM
    (fun k row => do
      let b ← memRead site m (a + row)
      drawRow site vx vy row b k) k

end Sys2Proof.Machine
end

