-- ==== Sys2Proof/Machine/Flags.lean ====
section
/-!
DEFINITION. The flag: register VF, written as 0 or 1 (10_state.md R35). Every flag computation of the spec,
each from the exact result on natural numbers (41_alu.md R130).
-/
namespace Sys2Proof.Machine

/-- A flag's value in a register: 0 or 1. -/
def flagByte (b : Bool) : RegVal := if b then 1 else 0

/-- `V[0xF] <- flag`. A meaning does this last, so VF holds the flag (R36, the spec's own D9: log 8). -/
def State.setFlag (s : State) (b : Bool) : State := s.setReg Config.flagReg (flagByte b)

/-- The carry of a register addition: `a + b > 255`, the largest value of REG_BITS bits (R130). -/
def carryOut (a b : RegVal) : Bool := decide (a.toNat + b.toNat > 2 ^ Config.regBits - 1)

/-- The not-borrow of a − b: `a >= b`, so equal operands give 1 (R130). -/
def notBorrow (a b : RegVal) : Bool := decide (a.toNat ≥ b.toNat)

/-- The bit a right shift by 1 shifts out: bit 0 (R139). -/
def bitOutRight (b : RegVal) : Bool := b.getLsbD 0

/-- The bit a left shift by 1 shifts out: the register's highest, bit 7 (R141). -/
def bitOutLeft (b : RegVal) : Bool := b.getLsbD (Config.regBits - 1)

/-- The carry of the address-register sum: `a + b > 65535`, the largest value of I_BITS bits
(42_index_memory.md R151). -/
def carryOutI (a : BitVec Config.iBits) (b : RegVal) : Bool :=
  decide (a.toNat + b.toNat > 2 ^ Config.iBits - 1)

end Sys2Proof.Machine
end

