-- ==== Sys2Proof/Machine/Operands.lean ====
section
/-!
DEFINITION. The operand forms: the 12-bit address widened (30_encoding.md R82), the one addressing mode
"address register plus offset" (42_index_memory.md), the register range V0..Vx, the key number in a
register, BCD digits, and the glyph address. Operands are read before any write (R99; log 7).
-/
namespace Sys2Proof.Machine

/-- `zext_16(nnn)`, written to pc or to I: widened to the register's own width. -/
def zextAddr (w : Nat) (nnn : Addr12) : BitVec w := nnn.setWidth w

/-- A byte (kk, a byte of memory, the random byte) as a register's value; the widths of bytes, registers and
timers are all 8, so this and the next three change nothing. -/
def byteToReg (b : Byte) : RegVal := b.setWidth Config.regBits
/-- A register's value as a byte of memory. -/
def regToByte (v : RegVal) : Byte := v.setWidth 8
/-- A timer's value as a register's (44_input_timers.md R177). -/
def timerToReg (t : BitVec Config.timerBits) : RegVal := t.setWidth Config.regBits
/-- A register's value as a timer's (44_input_timers.md R179, R180). -/
def regToTimer (v : RegVal) : BitVec Config.timerBits := v.setWidth Config.timerBits

/-- The effective address of the k-th byte: `I + k`, computed without wrap (20_memory.md R51). -/
def State.effAddr (s : State) (k : Nat) : Nat := s.i.toNat + k

/-- How many bytes a transfer of V0..Vx moves: x + 1. -/
def countTo (x : RegId) : Nat := x.val + 1

/-- V0, .., Vx, in ascending order. -/
def State.regsTo (s : State) (x : RegId) : List Byte := (s.v.toList.take (countTo x)).map regToByte

/-- I after a transfer of V0..Vx: `(I + x + 1) mod 65536` (42_index_memory.md R154, R155). -/
def State.advancedI (s : State) (x : RegId) : BitVec Config.iBits :=
  BitVec.ofNat Config.iBits (s.i.toNat + countTo x)

/-- The hundreds, tens and units digit of a register's value, each one byte of memory (R153). -/
def bcdDigits (b : RegVal) : List Byte :=
  [BitVec.ofNat _ (b.toNat / 100), BitVec.ofNat _ (b.toNat / 10 % 10), BitVec.ofNat _ (b.toNat % 10)]

/-- `V[x] * 5`, with no mask of V[x] (R152). -/
def glyphAddr (b : RegVal) : BitVec Config.iBits := BitVec.ofNat Config.iBits (b.toNat * Config.glyphBytes)

/-- The key a register value names: KEY_RANGE at 16 or more (44_input_timers.md R175, R176; log 9). -/
def keyOperand (site : FaultSite) (b : RegVal) : Except Fault Key :=
  if h : b.toNat < Config.nkeys then .ok ⟨b.toNat, h⟩ else .error (.keyRange site b.toNat)

end Sys2Proof.Machine
end

