-- ==== Sys2Proof/Machine/Alu.lean ====
section
/-!
DEFINITION. Register loads and the 8-bit ALU (41_alu.md). Results are mod 256 (R130); where an instruction
writes a flag, the flag is written last (10_state.md R36; log 8).
-/
namespace Sys2Proof.Machine

/-- R131: `V[x] <- kk`. -/
def execLdImm (x : RegId) (kk : Byte) (s : State) : Host.Outcome State Fault Refusal :=
  .next (s.setReg x (byteToReg kk))

/-- R132: `V[x] <- (V[x] + kk) mod 256`, no flag. -/
def execAddImm (x : RegId) (kk : Byte) (s : State) : Host.Outcome State Fault Refusal :=
  .next (s.setReg x (s.reg x + byteToReg kk))

/-- R133: `V[x] <- V[y]`. -/
def execLdReg (x y : RegId) (s : State) : Host.Outcome State Fault Refusal := .next (s.setReg x (s.reg y))

/-- R134: `V[x] <- V[x] | V[y]`, no flag. -/
def execOrReg (x y : RegId) (s : State) : Host.Outcome State Fault Refusal :=
  .next (s.setReg x (s.reg x ||| s.reg y))

/-- R135: `V[x] <- V[x] & V[y]`, no flag. -/
def execAndReg (x y : RegId) (s : State) : Host.Outcome State Fault Refusal :=
  .next (s.setReg x (s.reg x &&& s.reg y))

/-- R136: `V[x] <- V[x] ^ V[y]`, no flag. -/
def execXorReg (x y : RegId) (s : State) : Host.Outcome State Fault Refusal :=
  .next (s.setReg x (s.reg x ^^^ s.reg y))

/-- R137: sum, then VF = carry. -/
def execAddReg (x y : RegId) (s : State) : Host.Outcome State Fault Refusal :=
  .next ((s.setReg x (s.reg x + s.reg y)).setFlag (carryOut (s.reg x) (s.reg y)))

/-- R138: V[x] − V[y], then VF = not-borrow. -/
def execSubReg (x y : RegId) (s : State) : Host.Outcome State Fault Refusal :=
  .next ((s.setReg x (s.reg x - s.reg y)).setFlag (notBorrow (s.reg x) (s.reg y)))

/-- R139: V[y] >> 1 to V[y] and to V[x], then VF = the bit shifted out. -/
def execShr (x y : RegId) (s : State) : Host.Outcome State Fault Refusal :=
  .next (((s.setReg y (s.reg y >>> 1)).setReg x (s.reg y >>> 1)).setFlag (bitOutRight (s.reg y)))

/-- R140: V[y] − V[x] to V[x], then VF = not-borrow. -/
def execSubnReg (x y : RegId) (s : State) : Host.Outcome State Fault Refusal :=
  .next ((s.setReg x (s.reg y - s.reg x)).setFlag (notBorrow (s.reg y) (s.reg x)))

/-- R141: V[y] << 1 to V[y] and to V[x], then VF = the bit shifted out. -/
def execShl (x y : RegId) (s : State) : Host.Outcome State Fault Refusal :=
  .next (((s.setReg y (s.reg y <<< 1)).setReg x (s.reg y <<< 1)).setFlag (bitOutLeft (s.reg y)))

/-- R142: the Step's random byte, masked by kk. -/
def execRnd (x : RegId) (kk : Byte) (s : State) : Host.Outcome State Fault Refusal :=
  .next (s.setReg x (byteToReg (s.input.randomByte &&& kk)))

end Sys2Proof.Machine
end

