-- ==== Sys2Proof/Machine/ControlFlow.lean ====
section
/-!
DEFINITION. Control-flow instructions (40_control_flow.md). On entry pc already holds ipc + 2 (30_encoding.md R96).
-/
namespace Sys2Proof.Machine

/-- R110: nothing; the fetch has advanced pc. -/
def execSys (_nnn : Addr12) (s : State) : Host.Outcome State Fault Refusal := .next s

/-- R111: `pc <- Pop()`. -/
def execRet (s : State) : Host.Outcome State Fault Refusal :=
  settle do
    let (a, rest) ← pop (s.faultSite .ret) s.stack
    return (s.setStack rest).setPc (ofEntry a)

/-- R112: `pc <- zext_16(nnn)`. -/
def execJp (nnn : Addr12) (s : State) : Host.Outcome State Fault Refusal :=
  .next (s.setPc (zextAddr _ nnn))

/-- R113: `Push(pc)`, then `pc <- zext_16(nnn)`. -/
def execCall (nnn : Addr12) (s : State) : Host.Outcome State Fault Refusal :=
  settle do
    let l ← push (s.faultSite (.call nnn)) s.stack (toEntry s.pc)
    return (s.setStack l).setPc (zextAddr _ nnn)

/-- R114: skip if V[x] = kk. -/
def execSeImm (x : RegId) (kk : Byte) (s : State) : Host.Outcome State Fault Refusal :=
  .next (s.skipIf (s.reg x == byteToReg kk))

/-- R115: skip if V[x] != kk. -/
def execSneImm (x : RegId) (kk : Byte) (s : State) : Host.Outcome State Fault Refusal :=
  .next (s.skipIf (s.reg x != byteToReg kk))

/-- R116: skip if V[x] = V[y]. -/
def execSeReg (x y : RegId) (s : State) : Host.Outcome State Fault Refusal :=
  .next (s.skipIf (s.reg x == s.reg y))

/-- R117: skip if V[x] != V[y]. -/
def execSneReg (x y : RegId) (s : State) : Host.Outcome State Fault Refusal :=
  .next (s.skipIf (s.reg x != s.reg y))

/-- R118: `pc <- (nnn + V[0]) mod 2^16`, not masked to 12 bits. -/
def execJpV0 (nnn : Addr12) (s : State) : Host.Outcome State Fault Refusal :=
  .next (s.setPc (BitVec.ofNat Config.pcBits (nnn.toNat + (s.reg 0).toNat)))

end Sys2Proof.Machine
end

