-- ==== Sys2Proof/Machine/Display.lean ====
section
/-!
DEFINITION. The pixel grid's instructions (43_display.md): CLS and DRW.
-/
namespace Sys2Proof.Machine

/-- R166: every cell false, then RenderClear; the spec's own D18: no draw, no failure answer (log 14). -/
def execCls (s : State) : Host.Outcome State Fault Refusal := .next ((s.setGrid 0).emit .renderClear)

/-- `emit RenderDraw(Grid)`; RENDER_FAILURE if the renderer answers fail (R167). -/
def State.present (s : State) (i : Instr) : Except Fault State :=
  let t := s.emit (.renderDraw s.grid)
  if s.input.drawOk then .ok t else .error (.renderFailure (t.faultSite i))

/-- R167: the coordinates are read before VF is cleared; the sprite of n rows at I is composited; VF is 1
exactly if a lit cell was hit; the grid goes to the renderer. -/
def execDrw (x y : RegId) (n : Height) (s : State) : Host.Outcome State Fault Refusal :=
  settle do
    let k ← drawSprite (s.faultSite (.drw x y n)) s.mem (s.effAddr 0) (s.reg x) (s.reg y) n.val
      { grid := s.grid, hit := false }
    ((s.setGrid k.grid).setFlag k.hit).present (.drw x y n)

end Sys2Proof.Machine
end

