-- ==== Sys2Proof/Machine/IndexMemory.lean ====
section
/-!
DEFINITION. Address-register and memory-transfer instructions (42_index_memory.md).
-/
namespace Sys2Proof.Machine

/-- R150: `I <- zext_16(nnn)`. -/
def execLdI (nnn : Addr12) (s : State) : Host.Outcome State Fault Refusal :=
  .next (s.setI (zextAddr _ nnn))

/-- R151: `I <- (I + V[x]) mod 65536`, then VF = 16-bit carry. -/
def execAddI (x : RegId) (s : State) : Host.Outcome State Fault Refusal :=
  .next ((s.setI (BitVec.ofNat Config.iBits (s.i.toNat + (s.reg x).toNat))).setFlag (carryOutI s.i (s.reg x)))

/-- R152: `I <- V[x] * 5`. -/
def execLdF (x : RegId) (s : State) : Host.Outcome State Fault Refusal := .next (s.setI (glyphAddr (s.reg x)))

/-- R153: the three BCD digits of V[x] at I, I + 1, I + 2; I is not changed. -/
def execLdB (x : RegId) (s : State) : Host.Outcome State Fault Refusal :=
  settle do
    let m ← storeBytes (s.faultSite (.ldB x)) s.mem (s.effAddr 0) (bcdDigits (s.reg x))
    return s.setMem m

/-- R154: V0..Vx at I, I + 1, .., then I advanced by x + 1. -/
def execStoreRegs (x : RegId) (s : State) : Host.Outcome State Fault Refusal :=
  settle do
    let m ← storeBytes (s.faultSite (.storeRegs x)) s.mem (s.effAddr 0) (s.regsTo x)
    return (s.setMem m).setI (s.advancedI x)

/-- R155: V0..Vx from I, I + 1, .., then I advanced by x + 1. -/
def execLoadRegs (x : RegId) (s : State) : Host.Outcome State Fault Refusal :=
  settle do
    let bs ← loadBytes (s.faultSite (.loadRegs x)) s.mem (s.effAddr 0) (countTo x)
    return (s.setRegs (bs.map byteToReg)).setI (s.advancedI x)

end Sys2Proof.Machine
end

