-- ==== Sys2Proof/Machine/InputTimers.lean ====
section
/-!
DEFINITION. Key input and timer-access instructions (44_input_timers.md).
-/
namespace Sys2Proof.Machine

/-- R175: skip if the key in V[x] is down; KEY_RANGE first. -/
def execSkp (x : RegId) (s : State) : Host.Outcome State Fault Refusal :=
  settle do
    let k ← keyOperand (s.faultSite (.skp x)) (s.reg x)
    return s.skipIf (s.isKeyDown k)

/-- R176: skip if the key in V[x] is not down; KEY_RANGE first. -/
def execSknp (x : RegId) (s : State) : Host.Outcome State Fault Refusal :=
  settle do
    let k ← keyOperand (s.faultSite (.sknp x)) (s.reg x)
    return s.skipIf (!s.isKeyDown k)

/-- R177: `V[x] <- DT`. -/
def execLdFromDt (x : RegId) (s : State) : Host.Outcome State Fault Refusal :=
  .next (s.setReg x (timerToReg s.dt))

/-- R178: the key pressed to V[x]; with no key (shutdown) the core halts and writes no register. -/
def execLdKey (x : RegId) (s : State) : Host.Outcome State Fault Refusal :=
  .next (match s.input.keyWait with
    | some k => s.setReg x (BitVec.ofNat Config.regBits k.val)
    | none => s.setStatus .halted)

/-- R179: `DT <- V[x]`. -/
def execLdToDt (x : RegId) (s : State) : Host.Outcome State Fault Refusal := .next (s.setDt (regToTimer (s.reg x)))

/-- R180: `ST <- V[x]`. -/
def execLdToSt (x : RegId) (s : State) : Host.Outcome State Fault Refusal := .next (s.setSt (regToTimer (s.reg x)))

end Sys2Proof.Machine
end

