-- ==== Sys2Proof/Machine/Timer.lean ====
section
/-!
DEFINITION. The timer tick at the start of every Running Step (60_exceptions.md R210 to R214). It cannot fault.
-/
namespace Sys2Proof.Machine

/-- A countdown never goes below 0 and never wraps (R212). -/
def countDown (b : BitVec Config.timerBits) : BitVec Config.timerBits := if b = 0 then 0 else b - 1

/-- The Step's time sample `now` (00_scope.md R16; log 2). -/
def State.now (s : State) : Nat := s.clock + s.input.elapsed

/-- `elapsed`: the time since last_tick. -/
def State.sinceTick (s : State) : Nat := s.now - s.lastTick

/-- Whether this Step's tick decrements: `elapsed >= TICK_PERIOD`. -/
def State.ticks (s : State) : Bool := decide (Config.tickPeriod ≤ s.sinceTick)

/-- What the tick emits: ToneStart where it decrements with ST > 0, ToneStop where it does not decrement
and the elapsed time reached TONE_OFF. -/
def State.tickEvents (s : State) : List Event :=
  if s.ticks then (if s.st = 0 then [] else [.toneStart])
  else if Config.toneOff ≤ s.sinceTick then [.toneStop] else []

/-- `TimerTick(now)` (R211). -/
def tick (s : State) : State :=
  { s with
    dt := if s.ticks then countDown s.dt else s.dt
    st := if s.ticks then countDown s.st else s.st
    lastTick := if s.ticks then s.now else s.lastTick
    clock := s.now
    events := s.events ++ s.tickEvents }

end Sys2Proof.Machine
end

