-- ==== Sys2Proof/Machine/Cycle.lean ====
section
/-!
DEFINITION. One Cycle Driver invocation: timer tick, fetch, decode, execute (30_encoding.md R96).
-/
namespace Sys2Proof.Machine

/-- A fault of the fetch itself records ipc and no word (60_exceptions.md R191). -/
def State.fetchSite (s : State) : FaultSite := { pc := s.pc, word := none, events := s.events }

/-- The fetch at ipc = pc: the bytes at ipc and ipc + 1, high byte first (20_memory.md R58). -/
def fetchWord (s : State) : Except Fault Word := do
  let hi ← memRead s.fetchSite s.mem s.pc.toNat
  let lo ← memRead s.fetchSite s.mem (s.pc.toNat + 1)
  return wordOfBytes hi lo

/-- A finished instruction's next state, its Step's input used up; a fault stays one. -/
def finishCycle : Host.Outcome State Fault Refusal → Host.Outcome State Fault Refusal
  | .next t => .next t.endCycle
  | .fault f => .fault f
  | .refused r => .refused r

/-- Execute what a word decodes to; an invalid word is the fault INVALID_INSTRUCTION with word = w (R192).
Here s is the state before pc advances. -/
def runWord (s : State) (w : Word) : Host.Outcome State Fault Refusal :=
  match decodeWord w with
  | .op i => finishCycle (exec i (s.setPc (nextPc s.pc)))
  | .invalid w' => .fault (.invalidInstruction { pc := s.pc, word := some w', events := s.events })

/-- The Step of a Running core (R96). -/
def cycle (s : State) : Host.Outcome State Fault Refusal :=
  match fetchWord (tick s) with
  | .ok w => runWord (tick s) w
  | .error f => .fault f

/-- The Step by status: a Halted core does nothing and returns Stop, a Faulted core returns the same
fault (R97, the spec's own D13: log 12). -/
def stepByStatus (s : State) : Host.Outcome State Fault Refusal :=
  match s.status with
  | .running => cycle s
  | .halted => .next s
  | .faulted record => .fault record

/-- The first of an instruction's two bytes placed at pc, where memory has that address. -/
def placeByte (m : Memory) (a : Nat) (b : Byte) : Memory := if a < Config.memSize then m.write a b else m

/-- A word placed where the next fetch reads it, in a core that is Running. -/
def placeWord (s : State) (w : Word) : State :=
  (s.setMem (placeByte (placeByte s.mem s.pc.toNat (hiByte w)) (s.pc.toNat + 1) (loByte w))).setStatus .running

end Sys2Proof.Machine
end

