-- ==== Sys2Proof/Machine/Step.lean ====
section
/-!
DEFINITION. The transition of the machine: `Step` (00_scope.md R11, 30_encoding.md R96, R97).
-/
namespace Sys2Proof.Machine

/-- One Step: a next state (Continue, or Stop where its status is Halted), or Fault(record). -/
def step (s : State) : Host.Outcome State Fault Refusal := stepByStatus s

/-- `s` with the instruction whose table bits are `w` placed where `step` fetches next (log 3). -/
def State.withFetchWord (s : State) (nbits w : Nat) : State := placeWord s (BitVec.ofNat 16 (w % 2 ^ nbits))

end Sys2Proof.Machine
end

