-- ==== Sys2Proof/Machine/Reset.lean ====
section
/-!
DEFINITION. `Reset(prog, now)`: construction plus program loading (70_reset_and_hazards.md R230 to R232; log 3).
-/
namespace Sys2Proof.Machine

/-- `Reset(prog, now)`: an image longer than 3584 bytes is the fault PROGRAM_TOO_LARGE and no machine is
created (R231); else every field at its reset value, the image at 512, last_tick at the time sample. -/
def load (prog : List Byte) (now : Nat) : Host.Outcome State Fault Refusal :=
  if prog.length ≤ Config.progMax then
    .next { State.reset with
      mem := State.reset.mem.writeAll Config.progBase prog
      lastTick := now
      clock := now }
  else .fault (.programTooLarge prog.length)

end Sys2Proof.Machine
end

