-- ==== Sys2Proof/Machine/Transaction.lean ====
section
/-!
DEFINITION. The block's transaction `Step(now) -> Continue | Stop | Fault(record)` (00_scope.md R11), with the
answers of its ports laid down, and fault entry (60_exceptions.md R201): here the status Faulted(record) is
written, which a fault outcome of `step` cannot carry (log 10).
-/
namespace Sys2Proof.Machine

/-- What the transaction returns. -/
inductive StepReturn where
  /-- Continue -/
  | continues
  /-- Stop: the core is Halted -/
  | stops
  /-- Fault(record) -/
  | faults (f : Fault)
  /-- the model gives no meaning; no instruction does this -/
  | refuses (r : Refusal)
deriving DecidableEq, Repr

/-- The inputs of the next Step laid down before any others. -/
def State.withInput (s : State) (a : StepInput) : State := { s with inputs := a :: s.inputs }

/-- What a Step's outcome makes of the state, and what it returns: Stop exactly where the core is Halted. -/
def conclude (s : State) : Host.Outcome State Fault Refusal → State × StepReturn
  | .next t => (t, if t.status = .halted then .stops else .continues)
  | .fault f => (s.enterFault f, .faults f)
  | .refused r => (s, .refuses r)

/-- `Step(now)` with its port answers. A core that is not Running takes no input (30_encoding.md R97). -/
def transact (s : State) (a : StepInput) : State × StepReturn :=
  match s.status with
  | .running => conclude s (step (s.withInput a))
  | .halted => (s, .stops)
  | .faulted f => (s, .faults f)

end Sys2Proof.Machine
end

