-- ==== Sys2Proof/Safety.lean ====
section
/-!
DEFINITION. The terms claims are stated in: which parts of the state stay the same, the invariant of the
machine, and the states a run can reach.
-/
namespace Sys2Proof.Machine

/-- The parts of the state, one for each field. -/
inductive Part where
  | regs | pc | i | stack | dt | st | mem | grid | status | lastTick | events | clock | inputs | cycles
deriving DecidableEq, Repr

/-- One part is the same in two states: memory by the byte read at every address, the others by value. -/
def Same (s t : State) : Part → Prop
  | .regs => ∀ r, t.reg r = s.reg r
  | .pc => t.pc = s.pc
  | .i => t.i = s.i
  | .stack => t.stack = s.stack
  | .dt => t.dt = s.dt
  | .st => t.st = s.st
  | .mem => ∀ a, t.mem.read a = s.mem.read a
  | .grid => t.grid = s.grid
  | .status => t.status = s.status
  | .lastTick => t.lastTick = s.lastTick
  | .events => t.events = s.events
  | .clock => t.clock = s.clock
  | .inputs => t.inputs = s.inputs
  | .cycles => t.cycles = s.cycles

/-- The frame of a step from s to t: every part but the named ones is the same. -/
def SameBut (ps : List Part) (s t : State) : Prop := ∀ p, p ∉ ps → Same s t p

/-- VF (10_state.md R22). -/
abbrev vf : RegId := Config.flagReg

/-- The frame of an instruction that writes only registers of the list. -/
def OnlyRegs (l : List RegId) (s t : State) : Prop :=
  (∀ r, r ∉ l → t.reg r = s.reg r) ∧ SameBut [.regs] s t

/-- The instructions that write the flag (10_state.md R35). -/
def writesFlag : Instr → Bool
  | .addReg _ _ | .subReg _ _ | .subnReg _ _ | .shr _ _ | .shl _ _ | .addI _ | .drw _ _ _ => true
  | _ => false

/-- The instructions whose named destination is VF (10_state.md R35; LD Vx,[I] reaches VF at x = 15). -/
def namesVf : Instr → Bool
  | .ldImm x _ | .addImm x _ | .ldReg x _ | .orReg x _ | .andReg x _ | .xorReg x _ | .rnd x _
  | .ldFromDt x | .ldKey x | .loadRegs x => x == vf
  | _ => false

/-- What every step keeps: memory in canonical form, the call stack's depth and its return addresses
(10_state.md R27, 40_control_flow.md R111), the bound of pc (10_state.md R25), and last_tick not ahead of the
time sampled (00_scope.md R16). -/
structure Inv (s : State) : Prop where
  memWf : s.mem.wf = true
  depth : s.stack.length ≤ Config.stackDepth
  returns : ∀ a ∈ s.stack, a.toNat ≤ Config.memSize
  pcBound : s.pc.toNat ≤ 4350
  ticked : s.lastTick ≤ s.clock

/-- The states a run can reach: a successful Reset of any program at any time, then Steps, each with any
input (60_exceptions.md R220). -/
inductive Reachable : State → Prop where
  | reset (prog : List Byte) (now : Nat) (s : State) : load prog now = .next s → Reachable s
  | step (s t : State) (a : StepInput) : Reachable s → step (s.withInput a) = .next t → Reachable t

/-- A sprite of n rows can be drawn at (vx, vy): every row lies in memory and every set bit's cell in the
grid (43_display.md R167). -/
def SpriteFits (s : State) (vx vy : RegVal) (n : Nat) : Prop :=
  ∀ row < n, s.effAddr row < Config.memSize ∧
    ∀ col < Config.spriteW, spriteBit (s.mem.read (s.effAddr row)) col = true →
      cellIndex vx vy row col < Config.gridCells

/-- Cell c is the target of a set bit of the sprite of n rows at I, drawn at (vx, vy) (43_display.md R165). -/
def SpriteCovers (s : State) (vx vy : RegVal) (n c : Nat) : Prop :=
  ∃ row < n, ∃ col < Config.spriteW,
    spriteBit (s.mem.read (s.effAddr row)) col = true ∧ cellIndex vx vy row col = c

end Sys2Proof.Machine
end

