-- ==== Sys2Proof/Certificates/Slice0/Obligations.lean ====
section
/-!
DEFINITION. The statements about the machine, each from the rule of spec/ its docstring names. `exec i s` is
read at the state s after the fetch, where pc holds ipc + 2 (30_encoding.md R96). "log n" is
notes/assumptions/n.md: a statement that names one rests on a choice the spec marks as its own, or on the
model's.
-/
open Sys2Proof Sys2Proof.Machine

/-! ## Decoding -/

/-- R84: family 0. -/
def Obligations.DecodesFamilyZero : Prop :=
  decodeWord 0x00E0#16 = .op .cls ∧ decodeWord 0x00EE#16 = .op .ret ∧
  ∀ nnn : Addr12, nnn ≠ 0x0E0#12 → nnn ≠ 0x0EE#12 → decodeWord (0x0#4 ++ nnn) = .op (.sys nnn)

/-- R85: the families with no sub-dispatch key; every word is valid. -/
def Obligations.DecodesPlainFamilies : Prop :=
  ∀ (nnn : Addr12) (x y n : BitVec 4) (kk : Byte),
    decodeWord (0x1#4 ++ nnn) = .op (.jp nnn) ∧
    decodeWord (0x2#4 ++ nnn) = .op (.call nnn) ∧
    decodeWord (0x3#4 ++ x ++ kk) = .op (.seImm (regOf x) kk) ∧
    decodeWord (0x4#4 ++ x ++ kk) = .op (.sneImm (regOf x) kk) ∧
    decodeWord (0x6#4 ++ x ++ kk) = .op (.ldImm (regOf x) kk) ∧
    decodeWord (0x7#4 ++ x ++ kk) = .op (.addImm (regOf x) kk) ∧
    decodeWord (0xA#4 ++ nnn) = .op (.ldI nnn) ∧
    decodeWord (0xB#4 ++ nnn) = .op (.jpV0 nnn) ∧
    decodeWord (0xC#4 ++ x ++ kk) = .op (.rnd (regOf x) kk) ∧
    decodeWord (0xD#4 ++ x ++ y ++ n) = .op (.drw (regOf x) (regOf y) (heightOf n))

/-- R86: families 5 and 9. -/
def Obligations.DecodesFamiliesFiveAndNine : Prop :=
  ∀ x y n : BitVec 4,
    decodeWord (0x5#4 ++ x ++ y ++ 0x0#4) = .op (.seReg (regOf x) (regOf y)) ∧
    decodeWord (0x9#4 ++ x ++ y ++ 0x0#4) = .op (.sneReg (regOf x) (regOf y)) ∧
    (n ≠ 0x0#4 → decodeWord (0x5#4 ++ x ++ y ++ n) = .invalid (0x5#4 ++ x ++ y ++ n) ∧
      decodeWord (0x9#4 ++ x ++ y ++ n) = .invalid (0x9#4 ++ x ++ y ++ n))

/-- R87: family 8. -/
def Obligations.DecodesFamilyEight : Prop :=
  ∀ x y n : BitVec 4,
    decodeWord (0x8#4 ++ x ++ y ++ 0x0#4) = .op (.ldReg (regOf x) (regOf y)) ∧
    decodeWord (0x8#4 ++ x ++ y ++ 0x1#4) = .op (.orReg (regOf x) (regOf y)) ∧
    decodeWord (0x8#4 ++ x ++ y ++ 0x2#4) = .op (.andReg (regOf x) (regOf y)) ∧
    decodeWord (0x8#4 ++ x ++ y ++ 0x3#4) = .op (.xorReg (regOf x) (regOf y)) ∧
    decodeWord (0x8#4 ++ x ++ y ++ 0x4#4) = .op (.addReg (regOf x) (regOf y)) ∧
    decodeWord (0x8#4 ++ x ++ y ++ 0x5#4) = .op (.subReg (regOf x) (regOf y)) ∧
    decodeWord (0x8#4 ++ x ++ y ++ 0x6#4) = .op (.shr (regOf x) (regOf y)) ∧
    decodeWord (0x8#4 ++ x ++ y ++ 0x7#4) = .op (.subnReg (regOf x) (regOf y)) ∧
    decodeWord (0x8#4 ++ x ++ y ++ 0xE#4) = .op (.shl (regOf x) (regOf y)) ∧
    (n ∈ [0x8#4, 0x9#4, 0xA#4, 0xB#4, 0xC#4, 0xD#4, 0xF#4] →
      decodeWord (0x8#4 ++ x ++ y ++ n) = .invalid (0x8#4 ++ x ++ y ++ n))

/-- R88, R89: families E and F. -/
def Obligations.DecodesFamiliesEAndF : Prop :=
  ∀ (x : BitVec 4) (kk : Byte),
    decodeWord (0xE#4 ++ x ++ 0x9E#8) = .op (.skp (regOf x)) ∧
    decodeWord (0xE#4 ++ x ++ 0xA1#8) = .op (.sknp (regOf x)) ∧
    (kk ∉ [0x9E#8, 0xA1#8] → decodeWord (0xE#4 ++ x ++ kk) = .invalid (0xE#4 ++ x ++ kk)) ∧
    decodeWord (0xF#4 ++ x ++ 0x07#8) = .op (.ldFromDt (regOf x)) ∧
    decodeWord (0xF#4 ++ x ++ 0x0A#8) = .op (.ldKey (regOf x)) ∧
    decodeWord (0xF#4 ++ x ++ 0x15#8) = .op (.ldToDt (regOf x)) ∧
    decodeWord (0xF#4 ++ x ++ 0x18#8) = .op (.ldToSt (regOf x)) ∧
    decodeWord (0xF#4 ++ x ++ 0x1E#8) = .op (.addI (regOf x)) ∧
    decodeWord (0xF#4 ++ x ++ 0x29#8) = .op (.ldF (regOf x)) ∧
    decodeWord (0xF#4 ++ x ++ 0x33#8) = .op (.ldB (regOf x)) ∧
    decodeWord (0xF#4 ++ x ++ 0x55#8) = .op (.storeRegs (regOf x)) ∧
    decodeWord (0xF#4 ++ x ++ 0x65#8) = .op (.loadRegs (regOf x)) ∧
    (kk ∉ [0x07#8, 0x0A#8, 0x15#8, 0x18#8, 0x1E#8, 0x29#8, 0x33#8, 0x55#8, 0x65#8] →
      decodeWord (0xF#4 ++ x ++ kk) = .invalid (0xF#4 ++ x ++ kk))

/-- R91, which the spec marks as derived from R84 to R89: a word is invalid exactly if it is one of the listed
forms, and the variant carries the raw word (R83). -/
def Obligations.InvalidWordsAreExactly : Prop :=
  ∀ w w' : Word, decodeWord w = .invalid w' ↔ w' = w ∧
    ((w.extractLsb' 12 4 = 0x5#4 ∨ w.extractLsb' 12 4 = 0x9#4) ∧ w.extractLsb' 0 4 ≠ 0x0#4 ∨
      w.extractLsb' 12 4 = 0x8#4 ∧
        w.extractLsb' 0 4 ∈ [0x8#4, 0x9#4, 0xA#4, 0xB#4, 0xC#4, 0xD#4, 0xF#4] ∨
      w.extractLsb' 12 4 = 0xE#4 ∧ w.extractLsb' 0 8 ∉ [0x9E#8, 0xA1#8] ∨
      w.extractLsb' 12 4 = 0xF#4 ∧ w.extractLsb' 0 8 ∉
        [0x07#8, 0x0A#8, 0x15#8, 0x18#8, 0x1E#8, 0x29#8, 0x33#8, 0x55#8, 0x65#8])

/-- Decode and encode agree: every well-formed instruction's word, and its two bytes before any others,
decode to it. -/
def Obligations.DecodeOfEncode : Prop :=
  ∀ i : Instr, i.wellFormed = true →
    decodeWord (encode i) = .op i ∧ ∀ rest, decode (encodeBytes i ++ rest) = .ok (i, rest)

/-- The other direction: a word that decodes to an instruction is that instruction's word, so no bit of it
is dropped, and the instruction is well formed. -/
def Obligations.EncodeOfDecode : Prop :=
  ∀ (w : Word) (i : Instr), decodeWord w = .op i → encode i = w ∧ i.wellFormed = true

/-- Words of the spec's own tables (95_test_vectors.md W1, W5, E2 to E22). -/
def Obligations.SpecWordsDecode : Prop :=
  decodeWord 0xCABC#16 = .op (.rnd 0xA 0xBC#8) ∧ decodeWord 0x8AB4#16 = .op (.addReg 0xA 0xB) ∧
  decodeWord 0x00E0#16 = .op .cls ∧ decodeWord 0x00EE#16 = .op .ret ∧ decodeWord 0x0000#16 = .op (.sys 0x000#12) ∧
  decodeWord 0x00E1#16 = .op (.sys 0x0E1#12) ∧ decodeWord 0x01EE#16 = .op (.sys 0x1EE#12) ∧
  decodeWord 0x5120#16 = .op (.seReg 1 2) ∧ decodeWord 0x5121#16 = .invalid 0x5121#16 ∧
  decodeWord 0x9AB0#16 = .op (.sneReg 0xA 0xB) ∧ decodeWord 0x8008#16 = .invalid 0x8008#16 ∧
  decodeWord 0x800E#16 = .op (.shl 0 0) ∧ decodeWord 0xE09E#16 = .op (.skp 0) ∧
  decodeWord 0xE0A1#16 = .op (.sknp 0) ∧ decodeWord 0xF01F#16 = .invalid 0xF01F#16 ∧
  decodeWord 0xF065#16 = .op (.loadRegs 0) ∧ decodeWord 0xFFFF#16 = .invalid 0xFFFF#16 ∧
  decodeWord 0xD000#16 = .op (.drw 0 0 0) ∧ decodeWord 0xB123#16 = .op (.jpV0 0x123#12)

/-! ## Control flow -/

/-- R110: every other nnn than those of CLS and RET is SYS, which changes nothing in execute: beside the tick
before it and the end of the Step's input (log 1), the only effect of its cycle is the fetch's pc + 2. -/
def Obligations.SysChangesNothing : Prop :=
  ∀ (nnn : Addr12) (s : State), nnn ≠ 0x0E0#12 → nnn ≠ 0x0EE#12 →
    decodeWord (0x0#4 ++ nnn) = .op (.sys nnn) ∧
    (∃ t, exec (.sys nnn) s = .next t ∧ SameBut [] s t) ∧
    (s.status = .running → s.pc.toNat + 1 < 4096 →
      s.mem.read s.pc.toNat ++ s.mem.read (s.pc.toNat + 1) = (0x0#4 ++ nnn : BitVec 16) →
      ∃ t, step s = .next t ∧ t.pc.toNat = (s.pc.toNat + 2) % 65536 ∧ SameBut [.pc, .inputs, .cycles] (tick s) t)

/-- R112: JP. -/
def Obligations.JumpSetsPc : Prop :=
  ∀ (nnn : Addr12) (s : State),
    decodeWord (0x1#4 ++ nnn) = .op (.jp nnn) ∧
    ∃ t, exec (.jp nnn) s = .next t ∧ t.pc.toNat = nnn.toNat ∧ SameBut [.pc] s t

/-- R118: JP V0. The sum is not masked to 12 bits and is at most 0x10FE. -/
def Obligations.JumpAddsV0 : Prop :=
  ∀ (nnn : Addr12) (s : State),
    decodeWord (0xB#4 ++ nnn) = .op (.jpV0 nnn) ∧
    ∃ t, exec (.jpV0 nnn) s = .next t ∧ t.pc.toNat = (nnn.toNat + (s.reg 0).toNat) % 65536 ∧
      t.pc.toNat ≤ 0x10FE ∧ SameBut [.pc] s t

/-- R113: CALL pushes pc and jumps; with 24 entries held it is STACK_OVERFLOW. -/
def Obligations.CallPushesReturn : Prop :=
  ∀ (nnn : Addr12) (s : State),
    decodeWord (0x2#4 ++ nnn) = .op (.call nnn) ∧
    (s.stack.length < 24 → ∃ t, exec (.call nnn) s = .next t ∧ t.stack = s.stack ++ [s.pc] ∧
      t.pc.toNat = nnn.toNat ∧ SameBut [.pc, .stack] s t) ∧
    (s.stack.length = 24 → ∃ site, exec (.call nnn) s = .fault (.stackOverflow site))

/-- R111: RET pops the top entry into pc; with none it is STACK_UNDERFLOW. -/
def Obligations.ReturnPops : Prop :=
  ∀ (s : State),
    decodeWord 0x00EE#16 = .op .ret ∧
    (∀ rest top, s.stack = rest ++ [top] → ∃ t, exec .ret s = .next t ∧ t.pc = top ∧ t.stack = rest ∧
      SameBut [.pc, .stack] s t) ∧
    (s.stack = [] → ∃ site, exec .ret s = .fault (.stackUnderflow site))

/-- R114, R115: the skips on an immediate; a skip adds 2 to pc. -/
def Obligations.SkipsOnImmediate : Prop :=
  ∀ (x : BitVec 4) (kk : Byte) (s : State),
    decodeWord (0x3#4 ++ x ++ kk) = .op (.seImm (regOf x) kk) ∧
    decodeWord (0x4#4 ++ x ++ kk) = .op (.sneImm (regOf x) kk) ∧
    (∃ t, exec (.seImm (regOf x) kk) s = .next t ∧
      t.pc.toNat = (if s.reg (regOf x) = kk then (s.pc.toNat + 2) % 65536 else s.pc.toNat) ∧ SameBut [.pc] s t) ∧
    (∃ t, exec (.sneImm (regOf x) kk) s = .next t ∧
      t.pc.toNat = (if s.reg (regOf x) = kk then s.pc.toNat else (s.pc.toNat + 2) % 65536) ∧ SameBut [.pc] s t)

/-- R116, R117: the skips on two registers; x = y always skips SE and never skips SNE. -/
def Obligations.SkipsOnRegisters : Prop :=
  ∀ (x y : BitVec 4) (s : State),
    decodeWord (0x5#4 ++ x ++ y ++ 0x0#4) = .op (.seReg (regOf x) (regOf y)) ∧
    decodeWord (0x9#4 ++ x ++ y ++ 0x0#4) = .op (.sneReg (regOf x) (regOf y)) ∧
    (∀ n : BitVec 4, n ≠ 0x0#4 → decodeWord (0x5#4 ++ x ++ y ++ n) = .invalid (0x5#4 ++ x ++ y ++ n) ∧
      decodeWord (0x9#4 ++ x ++ y ++ n) = .invalid (0x9#4 ++ x ++ y ++ n)) ∧
    (∃ t, exec (.seReg (regOf x) (regOf y)) s = .next t ∧
      t.pc.toNat = (if s.reg (regOf x) = s.reg (regOf y) then (s.pc.toNat + 2) % 65536 else s.pc.toNat) ∧
      SameBut [.pc] s t) ∧
    (∃ t, exec (.sneReg (regOf x) (regOf y)) s = .next t ∧
      t.pc.toNat = (if s.reg (regOf x) = s.reg (regOf y) then s.pc.toNat else (s.pc.toNat + 2) % 65536) ∧
      SameBut [.pc] s t)

/-- A RET whose call stack is what a CALL left returns to the instruction after the CALL (R111, R113). -/
def Obligations.ReturnUndoesCall : Prop :=
  ∀ (nnn : Addr12) (s t u : State), exec (.call nnn) s = .next t → u.stack = t.stack →
    ∃ v, exec .ret u = .next v ∧ v.pc = s.pc ∧ v.stack = s.stack ∧ SameBut [.pc, .stack] u v

/-! ## Register loads and the ALU -/

/-- R131, R132: load and add immediate; the addition wraps. That ADD Vx,kk writes no flag is the spec's own
inference from its opcode table (90_conflicts.md C2). -/
def Obligations.LoadAndAddImmediate : Prop :=
  ∀ (x : BitVec 4) (kk : Byte) (s : State),
    decodeWord (0x6#4 ++ x ++ kk) = .op (.ldImm (regOf x) kk) ∧
    decodeWord (0x7#4 ++ x ++ kk) = .op (.addImm (regOf x) kk) ∧
    (∃ t, exec (.ldImm (regOf x) kk) s = .next t ∧ t.reg (regOf x) = kk ∧ OnlyRegs [regOf x] s t) ∧
    (∃ t, exec (.addImm (regOf x) kk) s = .next t ∧
      (t.reg (regOf x)).toNat = ((s.reg (regOf x)).toNat + kk.toNat) % 256 ∧ OnlyRegs [regOf x] s t)

/-- R133 to R136: LD, OR, AND, XOR of two registers, bit by bit; VF is not reset. -/
def Obligations.CopyAndLogic : Prop :=
  ∀ (x y : BitVec 4) (s : State),
    decodeWord (0x8#4 ++ x ++ y ++ 0x0#4) = .op (.ldReg (regOf x) (regOf y)) ∧
    decodeWord (0x8#4 ++ x ++ y ++ 0x1#4) = .op (.orReg (regOf x) (regOf y)) ∧
    decodeWord (0x8#4 ++ x ++ y ++ 0x2#4) = .op (.andReg (regOf x) (regOf y)) ∧
    decodeWord (0x8#4 ++ x ++ y ++ 0x3#4) = .op (.xorReg (regOf x) (regOf y)) ∧
    (∃ t, exec (.ldReg (regOf x) (regOf y)) s = .next t ∧ t.reg (regOf x) = s.reg (regOf y) ∧
      OnlyRegs [regOf x] s t) ∧
    (∃ t, exec (.orReg (regOf x) (regOf y)) s = .next t ∧
      (∀ k < 8, (t.reg (regOf x)).getLsbD k =
        ((s.reg (regOf x)).getLsbD k || (s.reg (regOf y)).getLsbD k)) ∧ OnlyRegs [regOf x] s t) ∧
    (∃ t, exec (.andReg (regOf x) (regOf y)) s = .next t ∧
      (∀ k < 8, (t.reg (regOf x)).getLsbD k =
        ((s.reg (regOf x)).getLsbD k && (s.reg (regOf y)).getLsbD k)) ∧ OnlyRegs [regOf x] s t) ∧
    (∃ t, exec (.xorReg (regOf x) (regOf y)) s = .next t ∧
      (∀ k < 8, (t.reg (regOf x)).getLsbD k =
        ((s.reg (regOf x)).getLsbD k ^^ (s.reg (regOf y)).getLsbD k)) ∧ OnlyRegs [regOf x] s t)

/-- R137: ADD Vx,Vy. For x = 15 the flag stays and for y = 15 the old VF is the operand: the spec's own D8 and
D9 (log 7, 8). -/
def Obligations.AddSetsCarry : Prop :=
  ∀ (x y : RegId) (s : State), ∃ t, exec (.addReg x y) s = .next t ∧
    (x ≠ vf → (t.reg x).toNat = ((s.reg x).toNat + (s.reg y).toNat) % 256) ∧
    t.reg vf = (if (s.reg x).toNat + (s.reg y).toNat > 255 then 1 else 0) ∧ OnlyRegs [x, vf] s t

/-- R138, R140: SUB and SUBN, a − b + 256 when a < b, with not-borrow. x = 15 rests on the spec's own D8 and
D9 (log 7, 8). -/
def Obligations.SubtractSetsNotBorrow : Prop :=
  ∀ (x y : RegId) (s : State),
    (∃ t, exec (.subReg x y) s = .next t ∧
      (x ≠ vf → (t.reg x).toNat =
        (if (s.reg x).toNat ≥ (s.reg y).toNat then (s.reg x).toNat - (s.reg y).toNat
          else (s.reg x).toNat + 256 - (s.reg y).toNat)) ∧
      t.reg vf = (if (s.reg x).toNat ≥ (s.reg y).toNat then 1 else 0) ∧ OnlyRegs [x, vf] s t) ∧
    (∃ t, exec (.subnReg x y) s = .next t ∧
      (x ≠ vf → (t.reg x).toNat =
        (if (s.reg y).toNat ≥ (s.reg x).toNat then (s.reg y).toNat - (s.reg x).toNat
          else (s.reg y).toNat + 256 - (s.reg x).toNat)) ∧
      t.reg vf = (if (s.reg y).toNat ≥ (s.reg x).toNat then 1 else 0) ∧ OnlyRegs [x, vf] s t)

/-- R139, R141: the shift source is Vy, the result goes to Vy and Vx, VF is the bit shifted out. The cases
x = 15 and y = 15 rest on the spec's own D8 and D9 (log 7, 8). -/
def Obligations.ShiftsTakeVy : Prop :=
  ∀ (x y : RegId) (s : State),
    (∃ t, exec (.shr x y) s = .next t ∧
      (∀ r, r ≠ vf → (r = x ∨ r = y) → (t.reg r).toNat = (s.reg y).toNat / 2) ∧
      (t.reg vf).toNat = (s.reg y).toNat % 2 ∧ OnlyRegs [x, y, vf] s t) ∧
    (∃ t, exec (.shl x y) s = .next t ∧
      (∀ r, r ≠ vf → (r = x ∨ r = y) → (t.reg r).toNat = (s.reg y).toNat * 2 % 256) ∧
      (t.reg vf).toNat = (s.reg y).toNat / 128 ∧ OnlyRegs [x, y, vf] s t)

/-- R142: RND masks the Step's random byte, whatever it is (log 1). -/
def Obligations.RandomByteMasked : Prop :=
  ∀ (x : RegId) (kk : Byte) (s : State),
    (∃ t, exec (.rnd x kk) s = .next t ∧ t.reg x &&& ~~~kk = 0 ∧ OnlyRegs [x] s t) ∧
    ∀ a : StepInput, ∃ t, exec (.rnd x kk) (s.withInput a) = .next t ∧
      (∀ k < 8, (t.reg x).getLsbD k = (a.randomByte.getLsbD k && kk.getLsbD k)) ∧ OnlyRegs [x] (s.withInput a) t

/-! ## The address register and memory transfers -/

/-- R150: LD I,nnn. -/
def Obligations.LoadIndex : Prop :=
  ∀ (nnn : Addr12) (s : State),
    decodeWord (0xA#4 ++ nnn) = .op (.ldI nnn) ∧
    ∃ t, exec (.ldI nnn) s = .next t ∧ t.i.toNat = nnn.toNat ∧ SameBut [.i] s t

/-- R151: ADD I,Vx, with the 16-bit carry. For x = 15 the old VF is the addend: the spec's own D8 (log 7). -/
def Obligations.AddToIndex : Prop :=
  ∀ (x : RegId) (s : State), ∃ t, exec (.addI x) s = .next t ∧
    t.i.toNat = (s.i.toNat + (s.reg x).toNat) % 65536 ∧
    t.reg vf = (if s.i.toNat + (s.reg x).toNat > 65535 then 1 else 0) ∧
    (∀ r, r ≠ vf → t.reg r = s.reg r) ∧ SameBut [.i, .regs] s t

/-- R152: LD F,Vx is V[x] × 5 with no mask (for V[x] of 16 or more the spec's own inference from "addr =
value×5"); for a digit it is where reset memory holds the glyph of R54, whose bytes stand here as the spec
gives them. -/
def Obligations.FontGlyphAddress : Prop :=
  ∀ (x : RegId) (s : State), ∃ t, exec (.ldF x) s = .next t ∧
    t.i.toNat = (s.reg x).toNat * 5 ∧ SameBut [.i] s t ∧
    ∀ (d k : Nat), d < 16 → k < 5 → (s.reg x).toNat = d →
      State.reset.mem.read (t.effAddr k) =
      ((([[0xF0, 0x90, 0x90, 0x90, 0xF0], [0x20, 0x60, 0x20, 0x20, 0x70],
        [0xF0, 0x10, 0xF0, 0x80, 0xF0], [0xF0, 0x10, 0xF0, 0x10, 0xF0],
        [0x90, 0x90, 0xF0, 0x10, 0x10], [0xF0, 0x80, 0xF0, 0x10, 0xF0],
        [0xF0, 0x80, 0xF0, 0x90, 0xF0], [0xF0, 0x10, 0x20, 0x40, 0x40],
        [0xF0, 0x90, 0xF0, 0x90, 0xF0], [0xF0, 0x90, 0xF0, 0x10, 0xF0],
        [0xF0, 0x90, 0xF0, 0x90, 0x90], [0xE0, 0x90, 0xE0, 0x90, 0xE0],
        [0xF0, 0x80, 0x80, 0x80, 0xF0], [0xE0, 0x90, 0x90, 0x90, 0xE0],
        [0xF0, 0x80, 0xF0, 0x80, 0xF0], [0xF0, 0x80, 0xF0, 0x80, 0x80]] : List (List Byte)).getD d []).getD k 0)

/-- R153: LD B,Vx, and MEMORY_RANGE at the first of I, I + 1, I + 2 out of range. -/
def Obligations.BcdStoresDigits : Prop :=
  ∀ (x : BitVec 4) (s : State),
    decodeWord (0xF#4 ++ x ++ 0x33#8) = .op (.ldB (regOf x)) ∧
    (s.mem.wf = true → s.effAddr 2 < 4096 → ∃ t, exec (.ldB (regOf x)) s = .next t ∧
      (t.mem.read (s.effAddr 0)).toNat = (s.reg (regOf x)).toNat / 100 ∧
      (t.mem.read (s.effAddr 1)).toNat = (s.reg (regOf x)).toNat / 10 % 10 ∧
      (t.mem.read (s.effAddr 2)).toNat = (s.reg (regOf x)).toNat % 10 ∧
      (∀ a, a ≠ s.effAddr 0 → a ≠ s.effAddr 1 → a ≠ s.effAddr 2 → t.mem.read a = s.mem.read a) ∧
      SameBut [.mem] s t) ∧
    (4096 ≤ s.effAddr 2 → ∃ site, exec (.ldB (regOf x)) s =
      .fault (.memoryRange site (if s.effAddr 0 ≥ 4096 then s.effAddr 0 else 4096)))

/-- R154: LD [I],Vx, and MEMORY_RANGE at the first address out of range. -/
def Obligations.StoreRegisters : Prop :=
  ∀ (x : BitVec 4) (s : State),
    decodeWord (0xF#4 ++ x ++ 0x55#8) = .op (.storeRegs (regOf x)) ∧
    (s.mem.wf = true → s.effAddr x.toNat < 4096 → ∃ t, exec (.storeRegs (regOf x)) s = .next t ∧
      (∀ r : RegId, r ≤ regOf x → t.mem.read (s.effAddr r.val) = s.reg r) ∧
      (∀ a, (∀ r : RegId, r ≤ regOf x → a ≠ s.effAddr r.val) → t.mem.read a = s.mem.read a) ∧
      t.i.toNat = (s.i.toNat + x.toNat + 1) % 65536 ∧ SameBut [.mem, .i] s t) ∧
    (4096 ≤ s.effAddr x.toNat → ∃ site, exec (.storeRegs (regOf x)) s =
      .fault (.memoryRange site (if s.effAddr 0 ≥ 4096 then s.effAddr 0 else 4096)))

/-- R155: LD Vx,[I], and MEMORY_RANGE at the first address out of range. -/
def Obligations.LoadRegisters : Prop :=
  ∀ (x : BitVec 4) (s : State),
    decodeWord (0xF#4 ++ x ++ 0x65#8) = .op (.loadRegs (regOf x)) ∧
    (s.effAddr x.toNat < 4096 → ∃ t, exec (.loadRegs (regOf x)) s = .next t ∧
      (∀ r : RegId, r ≤ regOf x → t.reg r = s.mem.read (s.effAddr r.val)) ∧
      (∀ r : RegId, ¬ r ≤ regOf x → t.reg r = s.reg r) ∧
      t.i.toNat = (s.i.toNat + x.toNat + 1) % 65536 ∧ SameBut [.regs, .i] s t) ∧
    (4096 ≤ s.effAddr x.toNat → ∃ site, exec (.loadRegs (regOf x)) s =
      .fault (.memoryRange site (if s.effAddr 0 ≥ 4096 then s.effAddr 0 else 4096)))

/-- R155, "loading is the exact inverse", as the spec derives it: with the stored memory and I set back, loading restores V0..Vx and
leaves I as the store left it. -/
def Obligations.LoadUndoesStore : Prop :=
  ∀ (x : RegId) (s t u : State), s.mem.wf = true → exec (.storeRegs x) s = .next t →
    (∀ a, u.mem.read a = t.mem.read a) → u.i = s.i →
    ∃ v, exec (.loadRegs x) u = .next v ∧ (∀ r, r ≤ x → v.reg r = s.reg r) ∧ v.i = t.i

/-- R67, which the spec derives: a word stored by LD [I] is the word a later fetch reads there, high byte first
(R58). -/
def Obligations.FetchSeesStore : Prop :=
  ∀ (x r q : RegId) (s t u : State), s.mem.wf = true → exec (.storeRegs x) s = .next t →
    r.val + 1 = q.val → q ≤ x → (∀ a, u.mem.read a = t.mem.read a) → u.pc.toNat = s.effAddr r.val →
    fetchWord u = .ok (s.reg r ++ s.reg q)

/-! ## The pixel grid -/

/-- R166: CLS makes every cell false, writes no register and emits RenderClear; that it emits nothing else
and cannot fail is the spec's own D18 (log 14). -/
def Obligations.ClearScreen : Prop :=
  ∀ s : State, ∃ t, exec .cls s = .next t ∧ (∀ c < 2048, Grid.lit t.grid c = false) ∧
    t.events = s.events ++ [.renderClear] ∧ SameBut [.grid, .events] s t

/-- R165, R167: DRW inverts exactly the cells under set sprite bits, VF says whether a lit one was among
them, and the new grid goes to the renderer. That a column past 63 lands in the next row is the spec's own
inference; the cases x = 15 and y = 15 (the old VF is the coordinate) rest on its D8 (log 7). -/
def Obligations.DrawXorsSprite : Prop :=
  ∀ (x y : RegId) (n : Height) (s : State),
    SpriteFits s (s.reg x) (s.reg y) n.val → s.input.drawOk = true →
    ∃ t, exec (.drw x y n) s = .next t ∧
      (∀ c < 2048, SpriteCovers s (s.reg x) (s.reg y) n.val c → Grid.lit t.grid c = !Grid.lit s.grid c) ∧
      (∀ c < 2048, ¬ SpriteCovers s (s.reg x) (s.reg y) n.val c → Grid.lit t.grid c = Grid.lit s.grid c) ∧
      ((∃ c, SpriteCovers s (s.reg x) (s.reg y) n.val c ∧ Grid.lit s.grid c = true) → t.reg vf = 1) ∧
      ((∀ c, SpriteCovers s (s.reg x) (s.reg y) n.val c → Grid.lit s.grid c = false) → t.reg vf = 0) ∧
      (∀ r, r ≠ vf → t.reg r = s.reg r) ∧
      t.events = s.events ++ [.renderDraw t.grid] ∧ SameBut [.regs, .grid, .events] s t

/-- R167, R195 to R197, and R200 (which the spec derives); for x = 15 or y = 15 the coordinate is the old VF, the
spec's own D8 (log 7): DRW's faults in the order of its actions: the first row outside memory, the
first set bit (most significant first) outside the grid, and last the renderer's failure, whose draw
event stands (R201). -/
def Obligations.DrawFaultsInOrder : Prop :=
  ∀ (x y : RegId) (n : Height) (s : State),
    (∀ row < n.val, SpriteFits s (s.reg x) (s.reg y) row → 4096 ≤ s.effAddr row →
      ∃ site, exec (.drw x y n) s = .fault (.memoryRange site (s.effAddr row))) ∧
    (∀ row < n.val, ∀ col < 8, SpriteFits s (s.reg x) (s.reg y) row → s.effAddr row < 4096 →
      (∀ k < col, spriteBit (s.mem.read (s.effAddr row)) k = true →
        cellIndex (s.reg x) (s.reg y) row k < 2048) →
      spriteBit (s.mem.read (s.effAddr row)) col = true → 2048 ≤ cellIndex (s.reg x) (s.reg y) row col →
      ∃ site, exec (.drw x y n) s = .fault (.gridRange site (cellIndex (s.reg x) (s.reg y) row col))) ∧
    (SpriteFits s (s.reg x) (s.reg y) n.val → s.input.drawOk = false →
      ∃ site g, exec (.drw x y n) s = .fault (.renderFailure site) ∧
        site.events = s.events ++ [.renderDraw g] ∧
        (∀ c < 2048, SpriteCovers s (s.reg x) (s.reg y) n.val c → Grid.lit g c = !Grid.lit s.grid c) ∧
        (∀ c < 2048, ¬ SpriteCovers s (s.reg x) (s.reg y) n.val c → Grid.lit g c = Grid.lit s.grid c))

/-- R167: drawing the same sprite twice at the same place restores the grid. The second draw's VF is 1
exactly if a covered cell was dark before the first: by the pseudocode, where the rule's own words
("if the sprite has any set bit") take the cells to be dark (log 25). For x = 15 or y = 15 the coordinate is
the old VF, the spec's own D8 (log 7). Both draws are read with one Step's input, so that the renderer
answers the second as it did the first (log 1). -/
def Obligations.DrawTwiceRestores : Prop :=
  ∀ (x y : RegId) (n : Height) (s t : State), exec (.drw x y n) s = .next t →
    t.reg x = s.reg x → t.reg y = s.reg y →
    ∃ u, exec (.drw x y n) t = .next u ∧ (∀ c < 2048, Grid.lit u.grid c = Grid.lit s.grid c) ∧
      ((∃ c, SpriteCovers s (s.reg x) (s.reg y) n.val c ∧ Grid.lit s.grid c = false) → u.reg vf = 1) ∧
      ((∀ c, SpriteCovers s (s.reg x) (s.reg y) n.val c → Grid.lit s.grid c = true) → u.reg vf = 0)

/-! ## Keys and timers -/

/-- R175, R176: SKP and SKNP by the input port's answer; KEY_RANGE at 16 or more is the spec's own D10
(log 9). -/
def Obligations.KeySkips : Prop :=
  ∀ (x : RegId) (s : State),
    (∀ k : Key, (s.reg x).toNat = k.val →
      (∃ t, exec (.skp x) s = .next t ∧
        t.pc.toNat = (if k ∈ s.input.keysDown then (s.pc.toNat + 2) % 65536 else s.pc.toNat) ∧
        SameBut [.pc] s t) ∧
      (∃ t, exec (.sknp x) s = .next t ∧
        t.pc.toNat = (if k ∈ s.input.keysDown then s.pc.toNat else (s.pc.toNat + 2) % 65536) ∧
        SameBut [.pc] s t)) ∧
    (16 ≤ (s.reg x).toNat →
      (∃ site, exec (.skp x) s = .fault (.keyRange site (s.reg x).toNat)) ∧
      (∃ site, exec (.sknp x) s = .fault (.keyRange site (s.reg x).toNat)))

/-- R177, R179, R180: reading DT, writing DT, writing ST; no event, no flag. -/
def Obligations.TimerTransfers : Prop :=
  ∀ (x : BitVec 4) (s : State),
    decodeWord (0xF#4 ++ x ++ 0x07#8) = .op (.ldFromDt (regOf x)) ∧
    decodeWord (0xF#4 ++ x ++ 0x15#8) = .op (.ldToDt (regOf x)) ∧
    decodeWord (0xF#4 ++ x ++ 0x18#8) = .op (.ldToSt (regOf x)) ∧
    (∃ t, exec (.ldFromDt (regOf x)) s = .next t ∧ t.reg (regOf x) = s.dt ∧ OnlyRegs [regOf x] s t) ∧
    (∃ t, exec (.ldToDt (regOf x)) s = .next t ∧ t.dt = s.reg (regOf x) ∧ SameBut [.dt] s t) ∧
    (∃ t, exec (.ldToSt (regOf x)) s = .next t ∧ t.st = s.reg (regOf x) ∧ SameBut [.st] s t)

/-- R178: LD Vx,K stores the key answered, or halts and writes no register. That the answer is a key 0 to 15 or
none is the spec's own D22 (log 15), that halting emits no event its D19 (log 14). -/
def Obligations.KeyWait : Prop :=
  ∀ (x : RegId) (s : State),
    (∀ k : Key, s.input.keyWait = some k → ∃ t, exec (.ldKey x) s = .next t ∧ (t.reg x).toNat = k.val ∧
      OnlyRegs [x] s t) ∧
    (s.input.keyWait = none → ∃ t, exec (.ldKey x) s = .next t ∧ t.status = .halted ∧ SameBut [.status] s t)

/-- R211: the tick, by the time elapsed since last_tick; a decrement stops at 0. That the time sample now is the
clock plus the input's elapsed time, and that the clock becomes it, is the model's form of time, in which
samples never decrease (the spec's own D6; log 2). -/
def Obligations.TickByElapsedTime : Prop :=
  ∀ (s : State) (now elapsed : Nat), now = s.clock + s.input.elapsed → elapsed = now - s.lastTick →
    (tick s).clock = now ∧ SameBut [.dt, .st, .lastTick, .events, .clock] s (tick s) ∧
    (1000000000 ≤ elapsed → (tick s).dt.toNat = s.dt.toNat - 1 ∧ (tick s).st.toNat = s.st.toNat - 1 ∧
      (tick s).lastTick = now ∧
      (s.st.toNat > 0 → (tick s).events = s.events ++ [.toneStart]) ∧
      (s.st.toNat = 0 → (tick s).events = s.events)) ∧
    (250000000 ≤ elapsed → elapsed < 1000000000 →
      (tick s).events = s.events ++ [.toneStop] ∧ SameBut [.events, .clock] s (tick s)) ∧
    (elapsed < 250000000 → SameBut [.clock] s (tick s))

/-- R212, which the spec derives from R211: a Step lowers each timer by at most 1 unless its instruction writes that timer, and last_tick stays
or moves to the Step's sample. That the sample never decreases is the spec's own D6 and the model's form of
time (log 2). -/
def Obligations.TimersFallByAtMostOne : Prop :=
  ∀ (s t : State) (w : Word) (i : Instr), s.status = .running → fetchWord s = .ok w → decodeWord w = .op i →
    step s = .next t →
    ((∀ x, i ≠ .ldToDt x) → t.dt.toNat ≤ s.dt.toNat ∧ s.dt.toNat ≤ t.dt.toNat + 1) ∧
    ((∀ x, i ≠ .ldToSt x) → t.st.toNat ≤ s.st.toNat ∧ s.st.toNat ≤ t.st.toNat + 1) ∧
    (t.lastTick = s.lastTick ∨ t.lastTick = t.clock) ∧ s.clock ≤ t.clock

/-! ## The Step -/

/-- R96: a Running core's Step ticks, fetches the word at pc (high byte first), advances pc by 2 and executes
what the word decodes to; after it only the Step's input is used up (log 1). -/
def Obligations.StepRunsDecoded : Prop :=
  ∀ (s : State) (i : Instr), s.status = .running → s.pc.toNat + 1 < 4096 →
    decodeWord (s.mem.read s.pc.toNat ++ s.mem.read (s.pc.toNat + 1)) = .op i →
    (∀ t, exec i ((tick s).setPc (s.pc + 2)) = .next t →
      step s = .next t.endCycle ∧ SameBut [.inputs, .cycles] t t.endCycle ∧ t.endCycle.inputs = t.inputs.tail ∧
        t.endCycle.cycles = t.cycles + 1) ∧
    (∀ f, exec i ((tick s).setPc (s.pc + 2)) = .fault f → step s = .fault f)

/-- R96, as the spec derives it, and R195: a fetch at 4095 faults on its second byte and one at 4096 or more on
its first; the record has ipc and no word (the fields are the spec's own D15: log 11), and the tick's
events stand. -/
def Obligations.FetchOutsideMemoryFaults : Prop :=
  ∀ s : State, s.status = .running → 4095 ≤ s.pc.toNat →
    step s = .fault (.memoryRange { pc := s.pc, word := none, events := (tick s).events }
      (if s.pc.toNat = 4095 then 4096 else s.pc.toNat))

/-- R192: executing an invalid word is INVALID_INSTRUCTION with that word and ipc (the fields are the spec's
own D15: log 11). -/
def Obligations.InvalidWordFaults : Prop :=
  ∀ (s : State) (w : Word), s.status = .running → s.pc.toNat + 1 < 4096 →
    w = s.mem.read s.pc.toNat ++ s.mem.read (s.pc.toNat + 1) → decodeWord w = .invalid w →
    step s = .fault (.invalidInstruction { pc := s.pc, word := some w, events := (tick s).events })

/-- R97, the spec's own D13 (log 12): a Halted core's Step changes nothing and its transaction returns Stop; a
Faulted core's returns the same fault and changes nothing. No input is taken. -/
def Obligations.StoppedCoresDoNothing : Prop :=
  ∀ (s : State) (a : StepInput),
    (s.status = .halted → step s = .next s ∧ transact s a = (s, .stops)) ∧
    (∀ f, s.status = .faulted f → step s = .fault f ∧ transact s a = (s, .faults f))

/-- R191, R202: whatever faults in a Running core's Step, the record's pc is the fetch address, its word is
the fetched word (absent exactly if the fetch faulted), and every event emitted before stands (R201); the
fields are the spec's own D15 (log 11). -/
def Obligations.FaultRecordsFetch : Prop :=
  ∀ (s : State) (f : Fault), s.status = .running → step s = .fault f →
    f.pc = some s.pc ∧
    (f.word = none ∧ 4096 ≤ s.pc.toNat + 1 ∨ s.pc.toNat + 1 < 4096 ∧
      f.word = some (s.mem.read s.pc.toNat ++ s.mem.read (s.pc.toNat + 1))) ∧
    ∃ site es, f.site = some site ∧ site.events = (tick s).events ++ es

/-- R201, R203: a faulting transaction leaves the core Faulted with the record and the events that stand, and
every later transaction returns the same fault and changes nothing (the spec's own D12, D13: log 10, 12). -/
def Obligations.FaultIsTerminal : Prop :=
  ∀ (s : State) (a b : StepInput) (f : Fault) (site : FaultSite), s.status = .running →
    step (s.withInput a) = .fault f → f.site = some site →
    (transact s a).2 = .faults f ∧ (transact s a).1.status = .faulted f ∧
    (transact s a).1.events = site.events ∧
    transact (transact s a).1 b = ((transact s a).1, .faults f)

/-! ## Rules of the whole machine -/

/-- R33, R219: no instruction changes the status but an LD Vx,K with no key, which halts. -/
def Obligations.OnlyKeyWaitHalts : Prop :=
  ∀ (i : Instr) (s t : State), exec i s = .next t →
    t.status = s.status ∨ (∃ x, i = .ldKey x) ∧ s.input.keyWait = none ∧ t.status = .halted

/-- R59, R55: only LD B and LD [I] write memory. -/
def Obligations.MemoryWriters : Prop :=
  ∀ (i : Instr) (s t : State), exec i s = .next t → (∀ x, i ≠ .ldB x) → (∀ x, i ≠ .storeRegs x) →
    ∀ a, t.mem.read a = s.mem.read a

/-- R32: the grid is written by CLS and DRW only. -/
def Obligations.GridWriters : Prop :=
  ∀ (i : Instr) (s t : State), exec i s = .next t → i ≠ .cls → (∀ x y n, i ≠ .drw x y n) → t.grid = s.grid

/-- R28: "Only CALL pushes and only RET pops". -/
def Obligations.StackWriters : Prop :=
  ∀ (i : Instr) (s t : State), exec i s = .next t →
    t.stack = s.stack ∨ (∃ nnn, i = .call nnn) ∧ t.stack = s.stack ++ [s.pc] ∨
    i = .ret ∧ s.stack = t.stack ++ [t.pc]

/-- R35, whose list of the other writers of VF the spec derives from its opcode table (C2): a flag writer leaves
0 or 1 in VF, and no other instruction changes VF unless it names VF as its destination. Where a flag
writer's destination is VF it holds the flag because the flag is written last: the spec's own D9 (R36; log
8). -/
def Obligations.FlagWriters : Prop :=
  ∀ (i : Instr) (s t : State), exec i s = .next t →
    (writesFlag i = true → t.reg vf = 0 ∨ t.reg vf = 1) ∧
    (writesFlag i = false → namesVf i = false → t.reg vf = s.reg vf)

/-- R168, R180: execute emits an event only in CLS and DRW: tone events come from the tick alone. -/
def Obligations.EventsComeFromDisplay : Prop :=
  ∀ (i : Instr) (s t : State), exec i s = .next t → i ≠ .cls → (∀ x y n, i ≠ .drw x y n) → t.events = s.events

/-- R98, R99: every instruction has a meaning: no Step is refused. -/
def Obligations.NoStepRefused : Prop := ∀ (s : State) (r : Refusal), step s ≠ .refused r

/-! ## Reset and the invariant -/

/-- R230, R231: Reset places the program image at 512, every other byte is as in State.reset (ResetState says
which: the font and zeros), the time sample is last_tick; a longer image is PROGRAM_TOO_LARGE. The spec's own
decisions are the zeros (D4, log 5), last_tick (D5, log 6), V, I, DT and ST at 0 (D3, log 4) and that Reset
emits no event (D19, log 14). -/
def Obligations.LoadPlacesProgram : Prop :=
  ∀ (prog : List Byte) (now : Nat),
    (prog.length ≤ 3584 → ∃ s, load prog now = .next s ∧ s.mem.wf = true ∧
      (∀ k, (h : k < prog.length) → s.mem.read (512 + k) = prog[k]) ∧
      (∀ a, a < 512 ∨ 512 + prog.length ≤ a → s.mem.read a = State.reset.mem.read a) ∧
      s.lastTick = now ∧ s.clock = now ∧ SameBut [.mem, .lastTick, .clock] State.reset s) ∧
    (3584 < prog.length → load prog now = .fault (.programTooLarge prog.length))

/-- R232: what reset leaves: pc, the empty stack, the dark grid, Running; the font, whose 80 bytes stand here as
R54 gives them, and zeros elsewhere (D4, log 5); V, I, DT, ST at 0 (D3, log 4); no event (D19, log 14), in the
model's list of events (log 16). It is Reset with the empty program at time 0 (log 3). -/
def Obligations.ResetState : Prop :=
  State.reset.pc.toNat = 0x200 ∧ State.reset.stack = [] ∧ (∀ c, Grid.lit State.reset.grid c = false) ∧
  State.reset.status = .running ∧ State.reset.events = [] ∧
  (∀ r, State.reset.reg r = 0) ∧ State.reset.i = 0 ∧ State.reset.dt = 0 ∧ State.reset.st = 0 ∧
  (∀ d k, d < 16 → k < 5 → State.reset.mem.read (5 * d + k) =
      ((([[0xF0, 0x90, 0x90, 0x90, 0xF0], [0x20, 0x60, 0x20, 0x20, 0x70],
        [0xF0, 0x10, 0xF0, 0x80, 0xF0], [0xF0, 0x10, 0xF0, 0x10, 0xF0],
        [0x90, 0x90, 0xF0, 0x10, 0x10], [0xF0, 0x80, 0xF0, 0x10, 0xF0],
        [0xF0, 0x80, 0xF0, 0x90, 0xF0], [0xF0, 0x10, 0x20, 0x40, 0x40],
        [0xF0, 0x90, 0xF0, 0x90, 0xF0], [0xF0, 0x90, 0xF0, 0x10, 0xF0],
        [0xF0, 0x90, 0xF0, 0x90, 0x90], [0xE0, 0x90, 0xE0, 0x90, 0xE0],
        [0xF0, 0x80, 0x80, 0x80, 0xF0], [0xE0, 0x90, 0x90, 0x90, 0xE0],
        [0xF0, 0x80, 0xF0, 0x80, 0xF0], [0xF0, 0x80, 0xF0, 0x80, 0x80]] : List (List Byte)).getD d []).getD k 0)) ∧
  (∀ a, 80 ≤ a → State.reset.mem.read a = 0) ∧ load [] 0 = .next State.reset

/-- The memory's canonical form means what it is for: two memories in it that read the same at every
address are equal data (the model's own form of R50). -/
def Obligations.CanonicalMemoryIsUnique : Prop :=
  ∀ m m' : Memory, m.wf = true → m'.wf = true → (∀ a, m.read a = m'.read a) → m = m'

/-- The invariant holds at reset. -/
def Obligations.InvariantAtReset : Prop := Inv State.reset

/-- Every Step keeps the invariant: canonical memory, stack depth and return addresses, the bound of pc, and
last_tick not ahead of the clock. -/
def Obligations.StepKeepsInvariant : Prop := ∀ s t : State, Inv s → step s = .next t → Inv t

/-- Every state a run reaches, from any program at any time with any inputs, meets the invariant. -/
def Obligations.ReachableStatesMeetInvariant : Prop := ∀ s : State, Reachable s → Inv s

/-! ## What the transaction returns -/

/-- R96's last line and R178: a Running core's transaction whose Step answers a next state leaves that state and
returns Stop exactly where its status is Halted, else Continue. So an LD Vx,K fetched by a Running core
returns Stop where no key is answered, with the core Halted at pc + 2, every register as before and no event
beside the tick's (the spec's own D19, log 14), and Continue with the key in Vx where one is (a key 0 to 15
or none: D22, log 15). -/
def Obligations.TransactionReturns : Prop :=
  ∀ (s : State) (a : StepInput), s.status = .running →
    (∀ t, step (s.withInput a) = .next t →
      (t.status = .halted → transact s a = (t, .stops)) ∧ (t.status ≠ .halted → transact s a = (t, .continues))) ∧
    (∀ x, s.pc.toNat + 1 < 4096 →
      decodeWord (s.mem.read s.pc.toNat ++ s.mem.read (s.pc.toNat + 1)) = .op (.ldKey x) →
      (a.keyWait = none → (transact s a).2 = .stops ∧ (transact s a).1.status = .halted ∧
        (transact s a).1.pc.toNat = s.pc.toNat + 2 ∧
        SameBut [.pc, .status, .cycles, .inputs] (tick (s.withInput a)) (transact s a).1) ∧
      (∀ k : Key, a.keyWait = some k → (transact s a).2 = .continues ∧ (transact s a).1.status = .running ∧
        (transact s a).1.pc.toNat = s.pc.toNat + 2 ∧ ((transact s a).1.reg x).toNat = k.val ∧
        (∀ r, r ≠ x → (transact s a).1.reg r = s.reg r) ∧
        SameBut [.pc, .regs, .cycles, .inputs] (tick (s.withInput a)) (transact s a).1))
end

