-- ==== Sys2Proof/Laws/Decode.lean ====
section
/-!
SUPPORT. The fields of a word written from its fields, for the three word forms of the opcode map, and the
word written again from the fields of any word.
-/
namespace Sys2Proof

@[simp] theorem nibOfReg_regOf (b : BitVec 4) : nibOfReg (regOf b) = b := by
  simp [nibOfReg, regOf]

@[simp] theorem regOf_nibOfReg (r : RegId) : regOf (nibOfReg r) = r := by
  apply Fin.ext
  simp only [regOf, nibOfReg, BitVec.toNat_ofNat]
  exact Nat.mod_eq_of_lt r.isLt

@[simp] theorem nibOfHeight_heightOf (b : BitVec 4) : nibOfHeight (heightOf b) = b := by
  simp [nibOfHeight, heightOf]

@[simp] theorem heightOf_nibOfHeight (n : Height) : heightOf (nibOfHeight n) = n := by
  apply Fin.ext
  simp only [heightOf, nibOfHeight, BitVec.toNat_ofNat]
  exact Nat.mod_eq_of_lt n.isLt

/-! ## The widths, which are parameters (00_scope.md R6), as numbers -/

@[simp] theorem two_pow_regBits : 2 ^ Config.regBits = 256 := rfl
@[simp] theorem two_pow_pcBits : 2 ^ Config.pcBits = 65536 := rfl
@[simp] theorem two_pow_iBits : 2 ^ Config.iBits = 65536 := rfl
@[simp] theorem two_pow_timerBits : 2 ^ Config.timerBits = 256 := rfl

/-- A byte is below 256. -/
theorem byte_lt (b : Byte) : b.toNat < 256 := b.isLt

/-- A register's value is below 256: the width is a parameter (00_scope.md R6), so arithmetic needs this fact by
name. -/
theorem reg_lt (v : RegVal) : v.toNat < 256 := v.isLt

/-- A pc is below 65536. -/
theorem pc_lt (a : Pc) : a.toNat < 65536 := a.isLt

/-- Concatenation on natural numbers: `a:b` with a in the more significant position (00_scope.md R8). -/
theorem toNat_cat {m n : Nat} (a : BitVec m) (b : BitVec n) : (a ++ b).toNat = a.toNat * 2 ^ n + b.toNat := by
  rw [BitVec.toNat_append, ← Nat.shiftLeft_add_eq_or_of_lt b.isLt, Nat.shiftLeft_eq]

theorem toNat_wordNnn (f : BitVec 4) (nnn : Addr12) : (wordNnn f nnn).toNat = f.toNat * 4096 + nnn.toNat :=
  toNat_cat f nnn

theorem toNat_wordXkk (f : BitVec 4) (x : RegId) (kk : Byte) :
    (wordXkk f x kk).toNat = (f.toNat * 16 + (nibOfReg x).toNat) * 256 + kk.toNat := by
  rw [wordXkk, toNat_cat, toNat_cat]; rfl

theorem toNat_wordXyn (f : BitVec 4) (x y : RegId) (n : BitVec 4) : (wordXyn f x y n).toNat =
    ((f.toNat * 16 + (nibOfReg x).toNat) * 16 + (nibOfReg y).toNat) * 16 + n.toNat := by
  rw [wordXyn, toNat_cat, toNat_cat, toNat_cat]; rfl

theorem toNat_fieldF (w : Word) : (fieldF w).toNat = w.toNat / 4096 % 16 := by
  rw [fieldF, BitVec.extractLsb'_toNat, Nat.shiftRight_eq_div_pow]
theorem toNat_fieldNnn (w : Word) : (fieldNnn w).toNat = w.toNat % 4096 := by
  rw [fieldNnn, BitVec.extractLsb'_toNat, Nat.shiftRight_zero]
theorem toNat_nibbleX (w : Word) : (nibbleX w).toNat = w.toNat / 256 % 16 := by
  rw [nibbleX, BitVec.extractLsb'_toNat, Nat.shiftRight_eq_div_pow]
theorem toNat_nibbleY (w : Word) : (nibbleY w).toNat = w.toNat / 16 % 16 := by
  rw [nibbleY, BitVec.extractLsb'_toNat, Nat.shiftRight_eq_div_pow]
theorem toNat_fieldN (w : Word) : (fieldN w).toNat = w.toNat % 16 := by
  rw [fieldN, BitVec.extractLsb'_toNat, Nat.shiftRight_zero]
theorem toNat_fieldKk (w : Word) : (fieldKk w).toNat = w.toNat % 256 := by
  rw [fieldKk, BitVec.extractLsb'_toNat, Nat.shiftRight_zero]

/-! ## Fields of fnnn, fxkk, fxyn -/

@[simp] theorem fieldF_wordNnn (f : BitVec 4) (nnn : Addr12) : fieldF (wordNnn f nnn) = f := by
  apply BitVec.eq_of_toNat_eq
  rw [toNat_fieldF, toNat_wordNnn]
  omega

@[simp] theorem fieldNnn_wordNnn (f : BitVec 4) (nnn : Addr12) : fieldNnn (wordNnn f nnn) = nnn := by
  apply BitVec.eq_of_toNat_eq
  rw [toNat_fieldNnn, toNat_wordNnn]
  omega

@[simp] theorem fieldF_wordXkk (f : BitVec 4) (x : RegId) (kk : Byte) : fieldF (wordXkk f x kk) = f := by
  apply BitVec.eq_of_toNat_eq
  rw [toNat_fieldF, toNat_wordXkk]
  have := byte_lt kk
  omega

@[simp] theorem fieldX_wordXkk (f : BitVec 4) (x : RegId) (kk : Byte) : fieldX (wordXkk f x kk) = x := by
  have : nibbleX (wordXkk f x kk) = nibOfReg x := by
    apply BitVec.eq_of_toNat_eq
    rw [toNat_nibbleX, toNat_wordXkk]
    have := byte_lt kk
    omega
  rw [fieldX, this, regOf_nibOfReg]

@[simp] theorem fieldKk_wordXkk (f : BitVec 4) (x : RegId) (kk : Byte) : fieldKk (wordXkk f x kk) = kk := by
  apply BitVec.eq_of_toNat_eq
  rw [toNat_fieldKk, toNat_wordXkk]
  have := byte_lt kk
  omega

@[simp] theorem fieldF_wordXyn (f : BitVec 4) (x y : RegId) (n : BitVec 4) : fieldF (wordXyn f x y n) = f := by
  apply BitVec.eq_of_toNat_eq
  rw [toNat_fieldF, toNat_wordXyn]
  omega

@[simp] theorem fieldX_wordXyn (f : BitVec 4) (x y : RegId) (n : BitVec 4) : fieldX (wordXyn f x y n) = x := by
  have : nibbleX (wordXyn f x y n) = nibOfReg x := by
    apply BitVec.eq_of_toNat_eq
    rw [toNat_nibbleX, toNat_wordXyn]
    omega
  rw [fieldX, this, regOf_nibOfReg]

@[simp] theorem fieldY_wordXyn (f : BitVec 4) (x y : RegId) (n : BitVec 4) : fieldY (wordXyn f x y n) = y := by
  have : nibbleY (wordXyn f x y n) = nibOfReg y := by
    apply BitVec.eq_of_toNat_eq
    rw [toNat_nibbleY, toNat_wordXyn]
    omega
  rw [fieldY, this, regOf_nibOfReg]

@[simp] theorem fieldN_wordXyn (f : BitVec 4) (x y : RegId) (n : BitVec 4) : fieldN (wordXyn f x y n) = n := by
  apply BitVec.eq_of_toNat_eq
  rw [toNat_fieldN, toNat_wordXyn]
  omega

/-! ## A word from its own fields -/

theorem wordNnn_fields (w : Word) : wordNnn (fieldF w) (fieldNnn w) = w := by
  apply BitVec.eq_of_toNat_eq
  rw [toNat_wordNnn, toNat_fieldF, toNat_fieldNnn]
  omega

theorem wordXkk_fields (w : Word) : wordXkk (fieldF w) (fieldX w) (fieldKk w) = w := by
  apply BitVec.eq_of_toNat_eq
  rw [toNat_wordXkk, fieldX, nibOfReg_regOf, toNat_fieldF, toNat_nibbleX, toNat_fieldKk]
  omega

theorem wordXyn_fields (w : Word) : wordXyn (fieldF w) (fieldX w) (fieldY w) (fieldN w) = w := by
  apply BitVec.eq_of_toNat_eq
  rw [toNat_wordXyn, fieldX, fieldY, nibOfReg_regOf, nibOfReg_regOf, toNat_fieldF, toNat_nibbleX, toNat_nibbleY,
    toNat_fieldN]
  omega

/-! ## Bytes of a word (20_memory.md R58) -/

theorem toNat_wordOfBytes (hi lo : Byte) : (wordOfBytes hi lo).toNat = hi.toNat * 256 + lo.toNat :=
  toNat_cat hi lo
theorem toNat_hiByte (w : Word) : (hiByte w).toNat = w.toNat / 256 % 256 := by
  rw [hiByte, BitVec.extractLsb'_toNat, Nat.shiftRight_eq_div_pow]
theorem toNat_loByte (w : Word) : (loByte w).toNat = w.toNat % 256 := by
  rw [loByte, BitVec.extractLsb'_toNat, Nat.shiftRight_zero]

@[simp] theorem wordOfBytes_hi_lo (w : Word) : wordOfBytes (hiByte w) (loByte w) = w := by
  apply BitVec.eq_of_toNat_eq
  rw [toNat_wordOfBytes, toNat_hiByte, toNat_loByte]
  omega

/-- Two bytes decode as their word does. -/
theorem decode_cons (hi lo : Byte) (rest : List Byte) : decode (hi :: lo :: rest) =
    match decodeWord (wordOfBytes hi lo) with
    | .op i => .ok (i, rest)
    | .invalid w => .error (.invalidWord w) := rfl

/-! ## A word written as its fields -/

theorem cat_wordNnn (f : BitVec 4) (nnn : Addr12) : (f ++ nnn : BitVec (4 + 12)) = wordNnn f nnn := rfl

theorem cat_wordXkk (f x : BitVec 4) (kk : Byte) : (f ++ x ++ kk : BitVec (4 + 4 + 8)) = wordXkk f (regOf x) kk := by
  rw [wordXkk, nibOfReg_regOf]

theorem cat_wordXyn (f x y n : BitVec 4) :
    (f ++ x ++ y ++ n : BitVec (4 + 4 + 4 + 4)) = wordXyn f (regOf x) (regOf y) n := by
  rw [wordXyn, nibOfReg_regOf, nibOfReg_regOf]

end Sys2Proof
end

