-- ==== Sys2Proof/Laws/State.lean ====
section
/-!
SUPPORT. One lemma a field for each update of the state, true by rfl, so that no proof unfolds a record
update; and what reading a register gives after each.
-/
namespace Sys2Proof.Machine

/-! ### The changes of width, each between equal widths -/
@[simp] theorem byteToReg_eq (b : Byte) : byteToReg b = b := BitVec.setWidth_eq b
@[simp] theorem regToByte_eq (v : RegVal) : regToByte v = v := BitVec.setWidth_eq v
@[simp] theorem timerToReg_eq (t : BitVec Config.timerBits) : timerToReg t = t := BitVec.setWidth_eq t
@[simp] theorem regToTimer_eq (v : RegVal) : regToTimer v = v := BitVec.setWidth_eq v
@[simp] theorem toEntry_eq (a : Pc) : toEntry a = a := BitVec.setWidth_eq a
@[simp] theorem ofEntry_eq (a : RetAddr) : ofEntry a = a := BitVec.setWidth_eq a
@[simp] theorem map_byteToReg (bs : List Byte) : bs.map byteToReg = bs := by
  induction bs with
  | nil => rfl
  | cons b bs ih => rw [List.map_cons, ih, byteToReg_eq]
@[simp] theorem map_regToByte (vs : List RegVal) : vs.map regToByte = vs := by
  induction vs with
  | nil => rfl
  | cons v vs ih => rw [List.map_cons, ih, regToByte_eq]

/-- The address field keeps its value in pc and in I. -/
@[simp] theorem toNat_zextAddr (nnn : Addr12) : (zextAddr 16 nnn).toNat = nnn.toNat := by
  have := nnn.isLt
  rw [zextAddr, BitVec.toNat_setWidth, Nat.mod_eq_of_lt (by omega)]

/-! ### The parameters that R6 gives as a number and the source as a product or a difference -/
@[simp] theorem gridCells_eq : Config.gridCells = 2048 := rfl
@[simp] theorem progMax_eq : Config.progMax = 3584 := rfl

/-! ### setReg -/
@[simp] theorem State.setReg_v (s : State) (r : RegId) (b : RegVal) : (s.setReg r b).v = s.v.set r.val b := rfl
@[simp] theorem State.setReg_pc (s : State) (r : RegId) (b : RegVal) : (s.setReg r b).pc = s.pc := rfl
@[simp] theorem State.setReg_i (s : State) (r : RegId) (b : RegVal) : (s.setReg r b).i = s.i := rfl
@[simp] theorem State.setReg_stack (s : State) (r : RegId) (b : RegVal) : (s.setReg r b).stack = s.stack := rfl
@[simp] theorem State.setReg_dt (s : State) (r : RegId) (b : RegVal) : (s.setReg r b).dt = s.dt := rfl
@[simp] theorem State.setReg_st (s : State) (r : RegId) (b : RegVal) : (s.setReg r b).st = s.st := rfl
@[simp] theorem State.setReg_mem (s : State) (r : RegId) (b : RegVal) : (s.setReg r b).mem = s.mem := rfl
@[simp] theorem State.setReg_grid (s : State) (r : RegId) (b : RegVal) : (s.setReg r b).grid = s.grid := rfl
@[simp] theorem State.setReg_status (s : State) (r : RegId) (b : RegVal) : (s.setReg r b).status = s.status := rfl
@[simp] theorem State.setReg_lastTick (s : State) (r : RegId) (b : RegVal) : (s.setReg r b).lastTick = s.lastTick := rfl
@[simp] theorem State.setReg_events (s : State) (r : RegId) (b : RegVal) : (s.setReg r b).events = s.events := rfl
@[simp] theorem State.setReg_clock (s : State) (r : RegId) (b : RegVal) : (s.setReg r b).clock = s.clock := rfl
@[simp] theorem State.setReg_inputs (s : State) (r : RegId) (b : RegVal) : (s.setReg r b).inputs = s.inputs := rfl
@[simp] theorem State.setReg_cycles (s : State) (r : RegId) (b : RegVal) : (s.setReg r b).cycles = s.cycles := rfl

/-! ### setRegs -/
@[simp] theorem State.setRegs_v (s : State) (bs : List RegVal) : (s.setRegs bs).v = Vector.ofFn fun r => bs.getD r.val (s.reg r) := rfl
@[simp] theorem State.setRegs_pc (s : State) (bs : List RegVal) : (s.setRegs bs).pc = s.pc := rfl
@[simp] theorem State.setRegs_i (s : State) (bs : List RegVal) : (s.setRegs bs).i = s.i := rfl
@[simp] theorem State.setRegs_stack (s : State) (bs : List RegVal) : (s.setRegs bs).stack = s.stack := rfl
@[simp] theorem State.setRegs_dt (s : State) (bs : List RegVal) : (s.setRegs bs).dt = s.dt := rfl
@[simp] theorem State.setRegs_st (s : State) (bs : List RegVal) : (s.setRegs bs).st = s.st := rfl
@[simp] theorem State.setRegs_mem (s : State) (bs : List RegVal) : (s.setRegs bs).mem = s.mem := rfl
@[simp] theorem State.setRegs_grid (s : State) (bs : List RegVal) : (s.setRegs bs).grid = s.grid := rfl
@[simp] theorem State.setRegs_status (s : State) (bs : List RegVal) : (s.setRegs bs).status = s.status := rfl
@[simp] theorem State.setRegs_lastTick (s : State) (bs : List RegVal) : (s.setRegs bs).lastTick = s.lastTick := rfl
@[simp] theorem State.setRegs_events (s : State) (bs : List RegVal) : (s.setRegs bs).events = s.events := rfl
@[simp] theorem State.setRegs_clock (s : State) (bs : List RegVal) : (s.setRegs bs).clock = s.clock := rfl
@[simp] theorem State.setRegs_inputs (s : State) (bs : List RegVal) : (s.setRegs bs).inputs = s.inputs := rfl
@[simp] theorem State.setRegs_cycles (s : State) (bs : List RegVal) : (s.setRegs bs).cycles = s.cycles := rfl

/-! ### setPc -/
@[simp] theorem State.setPc_v (s : State) (a : Pc) : (s.setPc a).v = s.v := rfl
@[simp] theorem State.setPc_pc (s : State) (a : Pc) : (s.setPc a).pc = a := rfl
@[simp] theorem State.setPc_i (s : State) (a : Pc) : (s.setPc a).i = s.i := rfl
@[simp] theorem State.setPc_stack (s : State) (a : Pc) : (s.setPc a).stack = s.stack := rfl
@[simp] theorem State.setPc_dt (s : State) (a : Pc) : (s.setPc a).dt = s.dt := rfl
@[simp] theorem State.setPc_st (s : State) (a : Pc) : (s.setPc a).st = s.st := rfl
@[simp] theorem State.setPc_mem (s : State) (a : Pc) : (s.setPc a).mem = s.mem := rfl
@[simp] theorem State.setPc_grid (s : State) (a : Pc) : (s.setPc a).grid = s.grid := rfl
@[simp] theorem State.setPc_status (s : State) (a : Pc) : (s.setPc a).status = s.status := rfl
@[simp] theorem State.setPc_lastTick (s : State) (a : Pc) : (s.setPc a).lastTick = s.lastTick := rfl
@[simp] theorem State.setPc_events (s : State) (a : Pc) : (s.setPc a).events = s.events := rfl
@[simp] theorem State.setPc_clock (s : State) (a : Pc) : (s.setPc a).clock = s.clock := rfl
@[simp] theorem State.setPc_inputs (s : State) (a : Pc) : (s.setPc a).inputs = s.inputs := rfl
@[simp] theorem State.setPc_cycles (s : State) (a : Pc) : (s.setPc a).cycles = s.cycles := rfl

/-! ### setI -/
@[simp] theorem State.setI_v (s : State) (a : BitVec Config.iBits) : (s.setI a).v = s.v := rfl
@[simp] theorem State.setI_pc (s : State) (a : BitVec Config.iBits) : (s.setI a).pc = s.pc := rfl
@[simp] theorem State.setI_i (s : State) (a : BitVec Config.iBits) : (s.setI a).i = a := rfl
@[simp] theorem State.setI_stack (s : State) (a : BitVec Config.iBits) : (s.setI a).stack = s.stack := rfl
@[simp] theorem State.setI_dt (s : State) (a : BitVec Config.iBits) : (s.setI a).dt = s.dt := rfl
@[simp] theorem State.setI_st (s : State) (a : BitVec Config.iBits) : (s.setI a).st = s.st := rfl
@[simp] theorem State.setI_mem (s : State) (a : BitVec Config.iBits) : (s.setI a).mem = s.mem := rfl
@[simp] theorem State.setI_grid (s : State) (a : BitVec Config.iBits) : (s.setI a).grid = s.grid := rfl
@[simp] theorem State.setI_status (s : State) (a : BitVec Config.iBits) : (s.setI a).status = s.status := rfl
@[simp] theorem State.setI_lastTick (s : State) (a : BitVec Config.iBits) : (s.setI a).lastTick = s.lastTick := rfl
@[simp] theorem State.setI_events (s : State) (a : BitVec Config.iBits) : (s.setI a).events = s.events := rfl
@[simp] theorem State.setI_clock (s : State) (a : BitVec Config.iBits) : (s.setI a).clock = s.clock := rfl
@[simp] theorem State.setI_inputs (s : State) (a : BitVec Config.iBits) : (s.setI a).inputs = s.inputs := rfl
@[simp] theorem State.setI_cycles (s : State) (a : BitVec Config.iBits) : (s.setI a).cycles = s.cycles := rfl

/-! ### setStack -/
@[simp] theorem State.setStack_v (s : State) (l : List RetAddr) : (s.setStack l).v = s.v := rfl
@[simp] theorem State.setStack_pc (s : State) (l : List RetAddr) : (s.setStack l).pc = s.pc := rfl
@[simp] theorem State.setStack_i (s : State) (l : List RetAddr) : (s.setStack l).i = s.i := rfl
@[simp] theorem State.setStack_stack (s : State) (l : List RetAddr) : (s.setStack l).stack = l := rfl
@[simp] theorem State.setStack_dt (s : State) (l : List RetAddr) : (s.setStack l).dt = s.dt := rfl
@[simp] theorem State.setStack_st (s : State) (l : List RetAddr) : (s.setStack l).st = s.st := rfl
@[simp] theorem State.setStack_mem (s : State) (l : List RetAddr) : (s.setStack l).mem = s.mem := rfl
@[simp] theorem State.setStack_grid (s : State) (l : List RetAddr) : (s.setStack l).grid = s.grid := rfl
@[simp] theorem State.setStack_status (s : State) (l : List RetAddr) : (s.setStack l).status = s.status := rfl
@[simp] theorem State.setStack_lastTick (s : State) (l : List RetAddr) : (s.setStack l).lastTick = s.lastTick := rfl
@[simp] theorem State.setStack_events (s : State) (l : List RetAddr) : (s.setStack l).events = s.events := rfl
@[simp] theorem State.setStack_clock (s : State) (l : List RetAddr) : (s.setStack l).clock = s.clock := rfl
@[simp] theorem State.setStack_inputs (s : State) (l : List RetAddr) : (s.setStack l).inputs = s.inputs := rfl
@[simp] theorem State.setStack_cycles (s : State) (l : List RetAddr) : (s.setStack l).cycles = s.cycles := rfl

/-! ### setDt -/
@[simp] theorem State.setDt_v (s : State) (b : BitVec Config.timerBits) : (s.setDt b).v = s.v := rfl
@[simp] theorem State.setDt_pc (s : State) (b : BitVec Config.timerBits) : (s.setDt b).pc = s.pc := rfl
@[simp] theorem State.setDt_i (s : State) (b : BitVec Config.timerBits) : (s.setDt b).i = s.i := rfl
@[simp] theorem State.setDt_stack (s : State) (b : BitVec Config.timerBits) : (s.setDt b).stack = s.stack := rfl
@[simp] theorem State.setDt_dt (s : State) (b : BitVec Config.timerBits) : (s.setDt b).dt = b := rfl
@[simp] theorem State.setDt_st (s : State) (b : BitVec Config.timerBits) : (s.setDt b).st = s.st := rfl
@[simp] theorem State.setDt_mem (s : State) (b : BitVec Config.timerBits) : (s.setDt b).mem = s.mem := rfl
@[simp] theorem State.setDt_grid (s : State) (b : BitVec Config.timerBits) : (s.setDt b).grid = s.grid := rfl
@[simp] theorem State.setDt_status (s : State) (b : BitVec Config.timerBits) : (s.setDt b).status = s.status := rfl
@[simp] theorem State.setDt_lastTick (s : State) (b : BitVec Config.timerBits) : (s.setDt b).lastTick = s.lastTick := rfl
@[simp] theorem State.setDt_events (s : State) (b : BitVec Config.timerBits) : (s.setDt b).events = s.events := rfl
@[simp] theorem State.setDt_clock (s : State) (b : BitVec Config.timerBits) : (s.setDt b).clock = s.clock := rfl
@[simp] theorem State.setDt_inputs (s : State) (b : BitVec Config.timerBits) : (s.setDt b).inputs = s.inputs := rfl
@[simp] theorem State.setDt_cycles (s : State) (b : BitVec Config.timerBits) : (s.setDt b).cycles = s.cycles := rfl

/-! ### setSt -/
@[simp] theorem State.setSt_v (s : State) (b : BitVec Config.timerBits) : (s.setSt b).v = s.v := rfl
@[simp] theorem State.setSt_pc (s : State) (b : BitVec Config.timerBits) : (s.setSt b).pc = s.pc := rfl
@[simp] theorem State.setSt_i (s : State) (b : BitVec Config.timerBits) : (s.setSt b).i = s.i := rfl
@[simp] theorem State.setSt_stack (s : State) (b : BitVec Config.timerBits) : (s.setSt b).stack = s.stack := rfl
@[simp] theorem State.setSt_dt (s : State) (b : BitVec Config.timerBits) : (s.setSt b).dt = s.dt := rfl
@[simp] theorem State.setSt_st (s : State) (b : BitVec Config.timerBits) : (s.setSt b).st = b := rfl
@[simp] theorem State.setSt_mem (s : State) (b : BitVec Config.timerBits) : (s.setSt b).mem = s.mem := rfl
@[simp] theorem State.setSt_grid (s : State) (b : BitVec Config.timerBits) : (s.setSt b).grid = s.grid := rfl
@[simp] theorem State.setSt_status (s : State) (b : BitVec Config.timerBits) : (s.setSt b).status = s.status := rfl
@[simp] theorem State.setSt_lastTick (s : State) (b : BitVec Config.timerBits) : (s.setSt b).lastTick = s.lastTick := rfl
@[simp] theorem State.setSt_events (s : State) (b : BitVec Config.timerBits) : (s.setSt b).events = s.events := rfl
@[simp] theorem State.setSt_clock (s : State) (b : BitVec Config.timerBits) : (s.setSt b).clock = s.clock := rfl
@[simp] theorem State.setSt_inputs (s : State) (b : BitVec Config.timerBits) : (s.setSt b).inputs = s.inputs := rfl
@[simp] theorem State.setSt_cycles (s : State) (b : BitVec Config.timerBits) : (s.setSt b).cycles = s.cycles := rfl

/-! ### setMem -/
@[simp] theorem State.setMem_v (s : State) (m : Memory) : (s.setMem m).v = s.v := rfl
@[simp] theorem State.setMem_pc (s : State) (m : Memory) : (s.setMem m).pc = s.pc := rfl
@[simp] theorem State.setMem_i (s : State) (m : Memory) : (s.setMem m).i = s.i := rfl
@[simp] theorem State.setMem_stack (s : State) (m : Memory) : (s.setMem m).stack = s.stack := rfl
@[simp] theorem State.setMem_dt (s : State) (m : Memory) : (s.setMem m).dt = s.dt := rfl
@[simp] theorem State.setMem_st (s : State) (m : Memory) : (s.setMem m).st = s.st := rfl
@[simp] theorem State.setMem_mem (s : State) (m : Memory) : (s.setMem m).mem = m := rfl
@[simp] theorem State.setMem_grid (s : State) (m : Memory) : (s.setMem m).grid = s.grid := rfl
@[simp] theorem State.setMem_status (s : State) (m : Memory) : (s.setMem m).status = s.status := rfl
@[simp] theorem State.setMem_lastTick (s : State) (m : Memory) : (s.setMem m).lastTick = s.lastTick := rfl
@[simp] theorem State.setMem_events (s : State) (m : Memory) : (s.setMem m).events = s.events := rfl
@[simp] theorem State.setMem_clock (s : State) (m : Memory) : (s.setMem m).clock = s.clock := rfl
@[simp] theorem State.setMem_inputs (s : State) (m : Memory) : (s.setMem m).inputs = s.inputs := rfl
@[simp] theorem State.setMem_cycles (s : State) (m : Memory) : (s.setMem m).cycles = s.cycles := rfl

/-! ### setGrid -/
@[simp] theorem State.setGrid_v (s : State) (g : Grid) : (s.setGrid g).v = s.v := rfl
@[simp] theorem State.setGrid_pc (s : State) (g : Grid) : (s.setGrid g).pc = s.pc := rfl
@[simp] theorem State.setGrid_i (s : State) (g : Grid) : (s.setGrid g).i = s.i := rfl
@[simp] theorem State.setGrid_stack (s : State) (g : Grid) : (s.setGrid g).stack = s.stack := rfl
@[simp] theorem State.setGrid_dt (s : State) (g : Grid) : (s.setGrid g).dt = s.dt := rfl
@[simp] theorem State.setGrid_st (s : State) (g : Grid) : (s.setGrid g).st = s.st := rfl
@[simp] theorem State.setGrid_mem (s : State) (g : Grid) : (s.setGrid g).mem = s.mem := rfl
@[simp] theorem State.setGrid_grid (s : State) (g : Grid) : (s.setGrid g).grid = g := rfl
@[simp] theorem State.setGrid_status (s : State) (g : Grid) : (s.setGrid g).status = s.status := rfl
@[simp] theorem State.setGrid_lastTick (s : State) (g : Grid) : (s.setGrid g).lastTick = s.lastTick := rfl
@[simp] theorem State.setGrid_events (s : State) (g : Grid) : (s.setGrid g).events = s.events := rfl
@[simp] theorem State.setGrid_clock (s : State) (g : Grid) : (s.setGrid g).clock = s.clock := rfl
@[simp] theorem State.setGrid_inputs (s : State) (g : Grid) : (s.setGrid g).inputs = s.inputs := rfl
@[simp] theorem State.setGrid_cycles (s : State) (g : Grid) : (s.setGrid g).cycles = s.cycles := rfl

/-! ### setStatus -/
@[simp] theorem State.setStatus_v (s : State) (x : Status) : (s.setStatus x).v = s.v := rfl
@[simp] theorem State.setStatus_pc (s : State) (x : Status) : (s.setStatus x).pc = s.pc := rfl
@[simp] theorem State.setStatus_i (s : State) (x : Status) : (s.setStatus x).i = s.i := rfl
@[simp] theorem State.setStatus_stack (s : State) (x : Status) : (s.setStatus x).stack = s.stack := rfl
@[simp] theorem State.setStatus_dt (s : State) (x : Status) : (s.setStatus x).dt = s.dt := rfl
@[simp] theorem State.setStatus_st (s : State) (x : Status) : (s.setStatus x).st = s.st := rfl
@[simp] theorem State.setStatus_mem (s : State) (x : Status) : (s.setStatus x).mem = s.mem := rfl
@[simp] theorem State.setStatus_grid (s : State) (x : Status) : (s.setStatus x).grid = s.grid := rfl
@[simp] theorem State.setStatus_status (s : State) (x : Status) : (s.setStatus x).status = x := rfl
@[simp] theorem State.setStatus_lastTick (s : State) (x : Status) : (s.setStatus x).lastTick = s.lastTick := rfl
@[simp] theorem State.setStatus_events (s : State) (x : Status) : (s.setStatus x).events = s.events := rfl
@[simp] theorem State.setStatus_clock (s : State) (x : Status) : (s.setStatus x).clock = s.clock := rfl
@[simp] theorem State.setStatus_inputs (s : State) (x : Status) : (s.setStatus x).inputs = s.inputs := rfl
@[simp] theorem State.setStatus_cycles (s : State) (x : Status) : (s.setStatus x).cycles = s.cycles := rfl

/-! ### emit -/
@[simp] theorem State.emit_v (s : State) (e : Event) : (s.emit e).v = s.v := rfl
@[simp] theorem State.emit_pc (s : State) (e : Event) : (s.emit e).pc = s.pc := rfl
@[simp] theorem State.emit_i (s : State) (e : Event) : (s.emit e).i = s.i := rfl
@[simp] theorem State.emit_stack (s : State) (e : Event) : (s.emit e).stack = s.stack := rfl
@[simp] theorem State.emit_dt (s : State) (e : Event) : (s.emit e).dt = s.dt := rfl
@[simp] theorem State.emit_st (s : State) (e : Event) : (s.emit e).st = s.st := rfl
@[simp] theorem State.emit_mem (s : State) (e : Event) : (s.emit e).mem = s.mem := rfl
@[simp] theorem State.emit_grid (s : State) (e : Event) : (s.emit e).grid = s.grid := rfl
@[simp] theorem State.emit_status (s : State) (e : Event) : (s.emit e).status = s.status := rfl
@[simp] theorem State.emit_lastTick (s : State) (e : Event) : (s.emit e).lastTick = s.lastTick := rfl
@[simp] theorem State.emit_events (s : State) (e : Event) : (s.emit e).events = s.events ++ [e] := rfl
@[simp] theorem State.emit_clock (s : State) (e : Event) : (s.emit e).clock = s.clock := rfl
@[simp] theorem State.emit_inputs (s : State) (e : Event) : (s.emit e).inputs = s.inputs := rfl
@[simp] theorem State.emit_cycles (s : State) (e : Event) : (s.emit e).cycles = s.cycles := rfl

/-! ### skipIf -/
@[simp] theorem State.skipIf_v (s : State) (b : Bool) : (s.skipIf b).v = s.v := rfl
@[simp] theorem State.skipIf_pc (s : State) (b : Bool) : (s.skipIf b).pc = if b then nextPc s.pc else s.pc := rfl
@[simp] theorem State.skipIf_i (s : State) (b : Bool) : (s.skipIf b).i = s.i := rfl
@[simp] theorem State.skipIf_stack (s : State) (b : Bool) : (s.skipIf b).stack = s.stack := rfl
@[simp] theorem State.skipIf_dt (s : State) (b : Bool) : (s.skipIf b).dt = s.dt := rfl
@[simp] theorem State.skipIf_st (s : State) (b : Bool) : (s.skipIf b).st = s.st := rfl
@[simp] theorem State.skipIf_mem (s : State) (b : Bool) : (s.skipIf b).mem = s.mem := rfl
@[simp] theorem State.skipIf_grid (s : State) (b : Bool) : (s.skipIf b).grid = s.grid := rfl
@[simp] theorem State.skipIf_status (s : State) (b : Bool) : (s.skipIf b).status = s.status := rfl
@[simp] theorem State.skipIf_lastTick (s : State) (b : Bool) : (s.skipIf b).lastTick = s.lastTick := rfl
@[simp] theorem State.skipIf_events (s : State) (b : Bool) : (s.skipIf b).events = s.events := rfl
@[simp] theorem State.skipIf_clock (s : State) (b : Bool) : (s.skipIf b).clock = s.clock := rfl
@[simp] theorem State.skipIf_inputs (s : State) (b : Bool) : (s.skipIf b).inputs = s.inputs := rfl
@[simp] theorem State.skipIf_cycles (s : State) (b : Bool) : (s.skipIf b).cycles = s.cycles := rfl

/-! ### setFlag -/
@[simp] theorem State.setFlag_v (s : State) (b : Bool) : (s.setFlag b).v = s.v.set Config.flagReg.val (flagByte b) := rfl
@[simp] theorem State.setFlag_pc (s : State) (b : Bool) : (s.setFlag b).pc = s.pc := rfl
@[simp] theorem State.setFlag_i (s : State) (b : Bool) : (s.setFlag b).i = s.i := rfl
@[simp] theorem State.setFlag_stack (s : State) (b : Bool) : (s.setFlag b).stack = s.stack := rfl
@[simp] theorem State.setFlag_dt (s : State) (b : Bool) : (s.setFlag b).dt = s.dt := rfl
@[simp] theorem State.setFlag_st (s : State) (b : Bool) : (s.setFlag b).st = s.st := rfl
@[simp] theorem State.setFlag_mem (s : State) (b : Bool) : (s.setFlag b).mem = s.mem := rfl
@[simp] theorem State.setFlag_grid (s : State) (b : Bool) : (s.setFlag b).grid = s.grid := rfl
@[simp] theorem State.setFlag_status (s : State) (b : Bool) : (s.setFlag b).status = s.status := rfl
@[simp] theorem State.setFlag_lastTick (s : State) (b : Bool) : (s.setFlag b).lastTick = s.lastTick := rfl
@[simp] theorem State.setFlag_events (s : State) (b : Bool) : (s.setFlag b).events = s.events := rfl
@[simp] theorem State.setFlag_clock (s : State) (b : Bool) : (s.setFlag b).clock = s.clock := rfl
@[simp] theorem State.setFlag_inputs (s : State) (b : Bool) : (s.setFlag b).inputs = s.inputs := rfl
@[simp] theorem State.setFlag_cycles (s : State) (b : Bool) : (s.setFlag b).cycles = s.cycles := rfl

/-! ### endCycle -/
@[simp] theorem State.endCycle_v (s : State) : (s.endCycle).v = s.v := rfl
@[simp] theorem State.endCycle_pc (s : State) : (s.endCycle).pc = s.pc := rfl
@[simp] theorem State.endCycle_i (s : State) : (s.endCycle).i = s.i := rfl
@[simp] theorem State.endCycle_stack (s : State) : (s.endCycle).stack = s.stack := rfl
@[simp] theorem State.endCycle_dt (s : State) : (s.endCycle).dt = s.dt := rfl
@[simp] theorem State.endCycle_st (s : State) : (s.endCycle).st = s.st := rfl
@[simp] theorem State.endCycle_mem (s : State) : (s.endCycle).mem = s.mem := rfl
@[simp] theorem State.endCycle_grid (s : State) : (s.endCycle).grid = s.grid := rfl
@[simp] theorem State.endCycle_status (s : State) : (s.endCycle).status = s.status := rfl
@[simp] theorem State.endCycle_lastTick (s : State) : (s.endCycle).lastTick = s.lastTick := rfl
@[simp] theorem State.endCycle_events (s : State) : (s.endCycle).events = s.events := rfl
@[simp] theorem State.endCycle_clock (s : State) : (s.endCycle).clock = s.clock := rfl
@[simp] theorem State.endCycle_inputs (s : State) : (s.endCycle).inputs = s.inputs.tail := rfl
@[simp] theorem State.endCycle_cycles (s : State) : (s.endCycle).cycles = s.cycles + 1 := rfl

/-! ### withInput -/
@[simp] theorem State.withInput_v (s : State) (a : StepInput) : (s.withInput a).v = s.v := rfl
@[simp] theorem State.withInput_pc (s : State) (a : StepInput) : (s.withInput a).pc = s.pc := rfl
@[simp] theorem State.withInput_i (s : State) (a : StepInput) : (s.withInput a).i = s.i := rfl
@[simp] theorem State.withInput_stack (s : State) (a : StepInput) : (s.withInput a).stack = s.stack := rfl
@[simp] theorem State.withInput_dt (s : State) (a : StepInput) : (s.withInput a).dt = s.dt := rfl
@[simp] theorem State.withInput_st (s : State) (a : StepInput) : (s.withInput a).st = s.st := rfl
@[simp] theorem State.withInput_mem (s : State) (a : StepInput) : (s.withInput a).mem = s.mem := rfl
@[simp] theorem State.withInput_grid (s : State) (a : StepInput) : (s.withInput a).grid = s.grid := rfl
@[simp] theorem State.withInput_status (s : State) (a : StepInput) : (s.withInput a).status = s.status := rfl
@[simp] theorem State.withInput_lastTick (s : State) (a : StepInput) : (s.withInput a).lastTick = s.lastTick := rfl
@[simp] theorem State.withInput_events (s : State) (a : StepInput) : (s.withInput a).events = s.events := rfl
@[simp] theorem State.withInput_clock (s : State) (a : StepInput) : (s.withInput a).clock = s.clock := rfl
@[simp] theorem State.withInput_inputs (s : State) (a : StepInput) : (s.withInput a).inputs = a :: s.inputs := rfl
@[simp] theorem State.withInput_cycles (s : State) (a : StepInput) : (s.withInput a).cycles = s.cycles := rfl

/-! ### tick -/
@[simp] theorem tick_v (s : State) : (tick s).v = s.v := rfl
@[simp] theorem tick_pc (s : State) : (tick s).pc = s.pc := rfl
@[simp] theorem tick_i (s : State) : (tick s).i = s.i := rfl
@[simp] theorem tick_stack (s : State) : (tick s).stack = s.stack := rfl
@[simp] theorem tick_dt (s : State) : (tick s).dt = if s.ticks then countDown s.dt else s.dt := rfl
@[simp] theorem tick_st (s : State) : (tick s).st = if s.ticks then countDown s.st else s.st := rfl
@[simp] theorem tick_mem (s : State) : (tick s).mem = s.mem := rfl
@[simp] theorem tick_grid (s : State) : (tick s).grid = s.grid := rfl
@[simp] theorem tick_status (s : State) : (tick s).status = s.status := rfl
@[simp] theorem tick_lastTick (s : State) : (tick s).lastTick = if s.ticks then s.now else s.lastTick := rfl
@[simp] theorem tick_events (s : State) : (tick s).events = s.events ++ s.tickEvents := rfl
@[simp] theorem tick_clock (s : State) : (tick s).clock = s.now := rfl
@[simp] theorem tick_inputs (s : State) : (tick s).inputs = s.inputs := rfl
@[simp] theorem tick_cycles (s : State) : (tick s).cycles = s.cycles := rfl

/-! ### Reading a register after an update -/

/-- Reading a register after writing one. -/
@[simp] theorem State.reg_setReg (s : State) (r q : RegId) (b : RegVal) :
    (s.setReg r b).reg q = if q = r then b else s.reg q := by
  by_cases h : q = r
  · subst h
    simp [State.reg]
  · have h' : r.val ≠ q.val := fun e => h (Fin.ext e.symm)
    simp [State.reg, h, h']

/-- Reading a register after writing the flag. -/
@[simp] theorem State.reg_setFlag (s : State) (b : Bool) (q : RegId) :
    (s.setFlag b).reg q = if q = vf then flagByte b else s.reg q :=
  State.reg_setReg s Config.flagReg q (flagByte b)

/-- Reading a register after writing V0, V1, .. from a list. -/
@[simp] theorem State.reg_setRegs (s : State) (bs : List RegVal) (q : RegId) :
    (s.setRegs bs).reg q = bs.getD q.val (s.reg q) := by
  simp [State.reg]

@[simp] theorem State.reg_setPc (s : State) (a : Pc) (q : RegId) : (s.setPc a).reg q = s.reg q := rfl
@[simp] theorem State.reg_setI (s : State) (a : BitVec Config.iBits) (q : RegId) : (s.setI a).reg q = s.reg q := rfl
@[simp] theorem State.reg_setStack (s : State) (l : List RetAddr) (q : RegId) : (s.setStack l).reg q = s.reg q := rfl
@[simp] theorem State.reg_setDt (s : State) (b : BitVec Config.timerBits) (q : RegId) : (s.setDt b).reg q = s.reg q := rfl
@[simp] theorem State.reg_setSt (s : State) (b : BitVec Config.timerBits) (q : RegId) : (s.setSt b).reg q = s.reg q := rfl
@[simp] theorem State.reg_setMem (s : State) (m : Memory) (q : RegId) : (s.setMem m).reg q = s.reg q := rfl
@[simp] theorem State.reg_setGrid (s : State) (g : Grid) (q : RegId) : (s.setGrid g).reg q = s.reg q := rfl
@[simp] theorem State.reg_setStatus (s : State) (x : Status) (q : RegId) : (s.setStatus x).reg q = s.reg q := rfl
@[simp] theorem State.reg_emit (s : State) (e : Event) (q : RegId) : (s.emit e).reg q = s.reg q := rfl
@[simp] theorem State.reg_skipIf (s : State) (b : Bool) (q : RegId) : (s.skipIf b).reg q = s.reg q := rfl
@[simp] theorem State.reg_endCycle (s : State) (q : RegId) : (s.endCycle).reg q = s.reg q := rfl
@[simp] theorem State.reg_withInput (s : State) (a : StepInput) (q : RegId) : (s.withInput a).reg q = s.reg q := rfl
@[simp] theorem reg_tick (s : State) (q : RegId) : (tick s).reg q = s.reg q := rfl

/-! ### The Step's input is the same after every update but endCycle and withInput -/
@[simp] theorem State.input_setReg (s : State) (r : RegId) (b : RegVal) : (s.setReg r b).input = s.input := rfl
@[simp] theorem State.input_setRegs (s : State) (bs : List RegVal) : (s.setRegs bs).input = s.input := rfl
@[simp] theorem State.input_setPc (s : State) (a : Pc) : (s.setPc a).input = s.input := rfl
@[simp] theorem State.input_setI (s : State) (a : BitVec Config.iBits) : (s.setI a).input = s.input := rfl
@[simp] theorem State.input_setStack (s : State) (l : List RetAddr) : (s.setStack l).input = s.input := rfl
@[simp] theorem State.input_setDt (s : State) (b : BitVec Config.timerBits) : (s.setDt b).input = s.input := rfl
@[simp] theorem State.input_setSt (s : State) (b : BitVec Config.timerBits) : (s.setSt b).input = s.input := rfl
@[simp] theorem State.input_setMem (s : State) (m : Memory) : (s.setMem m).input = s.input := rfl
@[simp] theorem State.input_setGrid (s : State) (g : Grid) : (s.setGrid g).input = s.input := rfl
@[simp] theorem State.input_setStatus (s : State) (x : Status) : (s.setStatus x).input = s.input := rfl
@[simp] theorem State.input_emit (s : State) (e : Event) : (s.emit e).input = s.input := rfl
@[simp] theorem State.input_skipIf (s : State) (b : Bool) : (s.skipIf b).input = s.input := rfl
@[simp] theorem State.input_setFlag (s : State) (b : Bool) : (s.setFlag b).input = s.input := rfl
@[simp] theorem input_tick (s : State) : (tick s).input = s.input := rfl
@[simp] theorem State.input_withInput (s : State) (a : StepInput) : (s.withInput a).input = a := rfl

end Sys2Proof.Machine
end

