-- ==== Sys2Proof/Laws/Display.lean ====
section
/-!
SUPPORT. The XOR compositor: what one row and what a whole sprite does to the grid and to the collision, when it
succeeds, and which fault it raises first when it does not.
-/
namespace Sys2Proof.Machine

/-! ## One cell -/

theorem Grid.lit_flip (g : Grid) {c : Nat} (hc : c < Config.gridCells) (d : Nat) :
    Grid.lit (Grid.flip g c) d = if d = c then !Grid.lit g d else Grid.lit g d := by
  rw [Grid.lit, Grid.flip, BitVec.getLsbD_xor, BitVec.getLsbD_twoPow, Grid.lit]
  by_cases h : d = c
  · subst h
    have hc' : d < 2048 := hc
    simp [hc']
  · have h' : c ≠ d := fun e => h e.symm
    simp [h, h']

/-! ## A run of set bits over a list of columns or rows -/

/-- A fold over `range` that fails early fails whole. -/
theorem foldlM_range_error {β : Type} {f : β → Nat → Except Fault β} {b : β} {m n : Nat} {e : Fault} (hmn : m ≤ n)
    (h : (List.range m).foldlM f b = .error e) : (List.range n).foldlM f b = .error e := by
  induction n with
  | zero => rwa [Nat.le_zero.1 hmn] at h
  | succ n ih =>
    rcases Nat.lt_or_ge m (n + 1) with hlt | hge
    · rw [List.range_succ, List.foldlM_append, ih (by omega)]; rfl
    · rwa [show m = n + 1 from by omega] at h

/-- One more column or row of a fold. -/
theorem foldlM_range_succ {β : Type} {f : β → Nat → Except Fault β} {b b' : β} {m : Nat}
    (h : (List.range m).foldlM f b = .ok b') : (List.range (m + 1)).foldlM f b = f b' m := by
  rw [List.range_succ, List.foldlM_append, h]
  show (List.foldlM f b' [m]) = _
  rw [List.foldlM_cons]
  cases f b' m <;> rfl

/-- A fold that succeeds also succeeded on every shorter range. -/
theorem foldlM_range_ok_prefix {β : Type} {f : β → Nat → Except Fault β} {b b' : β} {m n : Nat} (hmn : m ≤ n)
    (h : (List.range n).foldlM f b = .ok b') : ∃ c, (List.range m).foldlM f b = .ok c := by
  cases hm : (List.range m).foldlM f b with
  | ok c => exact ⟨c, rfl⟩
  | error e => rw [foldlM_range_error hmn hm] at h; injection h

/-! ## One row -/

/-- Cell c lies under a set bit among the first m columns of a row. -/
def RowCovers (vx vy : RegVal) (row : Nat) (b : Byte) (m c : Nat) : Prop :=
  ∃ col < m, spriteBit b col = true ∧ cellIndex vx vy row col = c

/-- What a partly drawn row or sprite has done: the covered cells are inverted, and a hit says whether a lit
one was among them. -/
structure Composited (cov : Nat → Prop) (k k' : Canvas) : Prop where
  covered : ∀ c < Config.gridCells, cov c → Grid.lit k'.grid c = !Grid.lit k.grid c
  other : ∀ c < Config.gridCells, ¬ cov c → Grid.lit k'.grid c = Grid.lit k.grid c
  hit : k'.hit = true ↔ k.hit = true ∨ ∃ c, cov c ∧ Grid.lit k.grid c = true

theorem Composited.nothing {cov : Nat → Prop} (h : ∀ c, ¬ cov c) (k : Canvas) : Composited cov k k where
  covered c _ hc := absurd hc (h c)
  other _ _ _ := rfl
  hit := ⟨.inl, fun hk => hk.elim id fun ⟨c, hc, _⟩ => absurd hc (h c)⟩

/-- Two disjoint coverings, one after the other. -/
theorem Composited.trans {p q r : Nat → Prop} {k k' k'' : Canvas} (h : Composited p k k') (h' : Composited q k' k'')
    (hr : ∀ c, r c ↔ p c ∨ q c) (hd : ∀ c, p c → ¬ q c) (hq : ∀ c, q c → c < Config.gridCells) :
    Composited r k k'' where
  covered c hc hrc := by
    rcases (hr c).1 hrc with hp | hq'
    · rw [h'.other c hc (hd c hp), h.covered c hc hp]
    · rw [h'.covered c hc hq', h.other c hc fun hp => hd c hp hq']
  other c hc hrc := by
    rw [h'.other c hc fun hq' => hrc ((hr c).2 (.inr hq')), h.other c hc fun hp => hrc ((hr c).2 (.inl hp))]
  hit := by
    rw [h'.hit, h.hit]
    constructor
    · rintro ((hk | ⟨c, hc, hl⟩) | ⟨c, hc, hl⟩)
      · exact .inl hk
      · exact .inr ⟨c, (hr c).2 (.inl hc), hl⟩
      · exact .inr ⟨c, (hr c).2 (.inr hc), by rwa [h.other c (hq c hc) fun hp => hd c hp hc] at hl⟩
    · rintro (hk | ⟨c, hc, hl⟩)
      · exact .inl (.inl hk)
      · rcases (hr c).1 hc with hp | hq'
        · exact .inl (.inr ⟨c, hp, hl⟩)
        · exact .inr ⟨c, hq', by rwa [h.other c (hq c hq') fun hp => hd c hp hq']⟩

theorem drawCell_ok (site : FaultSite) {c : Nat} (hc : c < Config.gridCells) (k : Canvas) :
    ∃ k', drawCell site c k = .ok k' ∧ Composited (· = c) k k' := by
  refine ⟨_, if_pos hc, ⟨?_, ?_, ?_⟩⟩
  · rintro d hd rfl
    show Grid.lit (Grid.flip k.grid d) d = _
    rw [Grid.lit_flip _ hc, if_pos rfl]
  · intro d hd hne
    show Grid.lit (Grid.flip k.grid c) d = _
    rw [Grid.lit_flip _ hc, if_neg hne]
  · simp

theorem cellIndex_injective {vx vy : RegVal} {row row' col col' : Nat} (hc : col < Config.spriteW)
    (hc' : col' < Config.spriteW) (h : cellIndex vx vy row col = cellIndex vx vy row' col') :
    row = row' ∧ col = col' := by
  simp only [cellIndex, Config.gridW] at h
  have := Nat.lt_of_lt_of_le hc (show Config.spriteW ≤ 8 from Nat.le_refl _)
  have := Nat.lt_of_lt_of_le hc' (show Config.spriteW ≤ 8 from Nat.le_refl _)
  omega

/-- The columns of a row, as `drawRow` folds over them. -/
def drawCols (site : FaultSite) (vx vy : RegVal) (row : Nat) (b : Byte) (k : Canvas) (m : Nat) : Except Fault Canvas :=
  (List.range m).foldlM
    (fun k col => if spriteBit b col then drawCell site (cellIndex vx vy row col) k else .ok k) k

theorem drawCols_ok (site : FaultSite) (vx vy : RegVal) (row : Nat) (b : Byte) (k : Canvas) {m : Nat}
    (hm : m ≤ Config.spriteW)
    (h : ∀ col < m, spriteBit b col = true → cellIndex vx vy row col < Config.gridCells) :
    ∃ k', drawCols site vx vy row b k m = .ok k' ∧ Composited (RowCovers vx vy row b m) k k' := by
  induction m with
  | zero => exact ⟨k, rfl, .nothing (fun c ⟨col, hc, _⟩ => absurd hc (Nat.not_lt_zero _)) k⟩
  | succ m ih =>
    obtain ⟨k', hk', hcomp⟩ := ih (by omega) fun col hc => h col (by omega)
    have hsucc := foldlM_range_succ hk'
    by_cases hb : spriteBit b m = true
    · obtain ⟨k'', hk'', hcell⟩ := drawCell_ok site (h m (by omega) hb) k'
      refine ⟨k'', by rw [drawCols, hsucc, if_pos hb, hk''], hcomp.trans hcell ?_ ?_ ?_⟩
      · intro c
        constructor
        · rintro ⟨col, hc, hcb, rfl⟩
          rcases Nat.lt_or_ge col m with hlt | hge
          · exact .inl ⟨col, hlt, hcb, rfl⟩
          · exact .inr (by rw [show col = m from by omega])
        · rintro (⟨col, hc, hcb, rfl⟩ | rfl)
          · exact ⟨col, by omega, hcb, rfl⟩
          · exact ⟨m, by omega, hb, rfl⟩
      · rintro c ⟨col, hc, _, rfl⟩ heq
        have := (cellIndex_injective (by omega) (by omega) heq).2
        omega
      · rintro c rfl
        exact h m (by omega) hb
    · refine ⟨k', by rw [drawCols, hsucc, if_neg hb], ⟨?_, ?_, ?_⟩⟩
      all_goals
        have hiff : ∀ c, RowCovers vx vy row b (m + 1) c ↔ RowCovers vx vy row b m c := by
          intro c
          constructor
          · rintro ⟨col, hc, hcb, he⟩
            refine ⟨col, ?_, hcb, he⟩
            rcases Nat.lt_or_ge col m with hlt | hge
            · exact hlt
            · rw [show col = m from by omega] at hcb
              exact absurd hcb hb
          · rintro ⟨col, hc, hcb, he⟩
            exact ⟨col, by omega, hcb, he⟩
        simp only [hiff]
      · exact hcomp.covered
      · exact hcomp.other
      · exact hcomp.hit

/-- A row whose set bits all lie in the grid is composited. -/
theorem drawRow_ok (site : FaultSite) (vx vy : RegVal) (row : Nat) (b : Byte) (k : Canvas)
    (h : ∀ col < Config.spriteW, spriteBit b col = true → cellIndex vx vy row col < Config.gridCells) :
    ∃ k', drawRow site vx vy row b k = .ok k' ∧ Composited (RowCovers vx vy row b Config.spriteW) k k' :=
  drawCols_ok site vx vy row b k (Nat.le_refl _) h

/-- The first set bit outside the grid is the fault. -/
theorem drawRow_gridRange (site : FaultSite) (vx vy : RegVal) (row : Nat) (b : Byte) (k : Canvas) {m : Nat}
    (hm : m < Config.spriteW)
    (h : ∀ col < m, spriteBit b col = true → cellIndex vx vy row col < Config.gridCells)
    (hb : spriteBit b m = true) (hc : Config.gridCells ≤ cellIndex vx vy row m) :
    drawRow site vx vy row b k = .error (.gridRange site (cellIndex vx vy row m)) := by
  obtain ⟨k', hk', _⟩ := drawCols_ok site vx vy row b k (Nat.le_of_lt hm) h
  refine foldlM_range_error (m := m + 1) hm ?_
  rw [foldlM_range_succ hk', if_pos hb, drawCell, if_neg (by omega)]

/-! ## A sprite -/

/-- Cell c lies under a set bit of the first n rows at address a. -/
def Covers (m : Memory) (a : Nat) (vx vy : RegVal) (n c : Nat) : Prop :=
  ∃ row < n, RowCovers vx vy row (m.read (a + row)) Config.spriteW c

/-- The first n rows lie in memory, and their set bits in the grid. -/
def Fits (m : Memory) (a : Nat) (vx vy : RegVal) (n : Nat) : Prop :=
  ∀ row < n, a + row < Config.memSize ∧ ∀ col < Config.spriteW, spriteBit (m.read (a + row)) col = true →
    cellIndex vx vy row col < Config.gridCells

/-- A sprite that fits is composited. -/
theorem drawSprite_ok (site : FaultSite) (m : Memory) (a : Nat) (vx vy : RegVal) (n : Nat) (k : Canvas)
    (h : Fits m a vx vy n) :
    ∃ k', drawSprite site m a vx vy n k = .ok k' ∧ Composited (Covers m a vx vy n) k k' := by
  induction n with
  | zero => exact ⟨k, rfl, .nothing (fun c ⟨row, hr, _⟩ => absurd hr (Nat.not_lt_zero _)) k⟩
  | succ n ih =>
    obtain ⟨k', hk', hcomp⟩ := ih fun row hr => h row (by omega)
    have hn := h n (by omega)
    obtain ⟨k'', hk'', hrow⟩ := drawRow_ok site vx vy n (m.read (a + n)) k' hn.2
    refine ⟨k'', ?_, hcomp.trans hrow ?_ ?_ ?_⟩
    · rw [drawSprite, foldlM_range_succ hk', memRead, if_pos hn.1]
      exact hk''
    · intro c
      constructor
      · rintro ⟨row, hr, hc⟩
        rcases Nat.lt_or_ge row n with hlt | hge
        · exact .inl ⟨row, hlt, hc⟩
        · obtain rfl : row = n := by omega
          exact .inr hc
      · rintro (⟨row, hr, hc⟩ | hc)
        · exact ⟨row, by omega, hc⟩
        · exact ⟨n, by omega, hc⟩
    · rintro c ⟨row, hr, col, hc, _, rfl⟩ ⟨col', hc', _, heq⟩
      have := (cellIndex_injective hc' hc heq).1
      omega
    · rintro c ⟨col, hc, hb, rfl⟩
      exact hn.2 col hc hb

/-- The first row outside memory is the fault. -/
theorem drawSprite_memoryRange (site : FaultSite) (m : Memory) (a : Nat) (vx vy : RegVal) {n row : Nat} (k : Canvas)
    (hr : row < n) (h : Fits m a vx vy row) (ha : Config.memSize ≤ a + row) :
    drawSprite site m a vx vy n k = .error (.memoryRange site (a + row)) := by
  obtain ⟨k', hk', _⟩ := drawSprite_ok site m a vx vy row k h
  refine foldlM_range_error (m := row + 1) hr ?_
  rw [foldlM_range_succ hk', memRead, if_neg (by omega)]
  rfl

/-- The first row with a set bit outside the grid gives the fault of that row. -/
theorem drawSprite_gridRange (site : FaultSite) (m : Memory) (a : Nat) (vx vy : RegVal) {n row col : Nat} (k : Canvas)
    (hr : row < n) (h : Fits m a vx vy row) (ha : a + row < Config.memSize) (hcol : col < Config.spriteW)
    (hbefore : ∀ j < col, spriteBit (m.read (a + row)) j = true → cellIndex vx vy row j < Config.gridCells)
    (hb : spriteBit (m.read (a + row)) col = true) (hc : Config.gridCells ≤ cellIndex vx vy row col) :
    drawSprite site m a vx vy n k = .error (.gridRange site (cellIndex vx vy row col)) := by
  obtain ⟨k', hk', _⟩ := drawSprite_ok site m a vx vy row k h
  refine foldlM_range_error (m := row + 1) hr ?_
  rw [foldlM_range_succ hk', memRead, if_pos ha]
  exact drawRow_gridRange site vx vy row _ k' hcol hbefore hb hc

/-- A row or sprite that was drawn had every set bit in the grid, and every row in memory. -/
theorem drawSprite_fits {site : FaultSite} {m : Memory} {a : Nat} {vx vy : RegVal} {n : Nat} {k k' : Canvas}
    (h : drawSprite site m a vx vy n k = .ok k') : Fits m a vx vy n := by
  induction n generalizing k' with
  | zero => exact fun row hr => absurd hr (Nat.not_lt_zero _)
  | succ n ih =>
    obtain ⟨k1, hk1⟩ := foldlM_range_ok_prefix (Nat.le_succ n) h
    have hf := ih hk1
    intro row hr
    rcases Nat.lt_or_ge row n with hlt | hge
    · exact hf row hlt
    · obtain rfl : row = n := by omega
      have ha : a + row < Config.memSize := by
        by_contra hcon
        rw [drawSprite_memoryRange site m a vx vy k (Nat.lt_succ_self row) hf (by omega)] at h
        injection h
      refine ⟨ha, ?_⟩
      intro col
      induction col using Nat.strong_induction_on with
      | _ col ihc =>
        intro hcol hb
        by_contra hcon
        rw [drawSprite_gridRange site m a vx vy k (Nat.lt_succ_self row) hf ha hcol
          (fun j hj => ihc j hj (by omega)) hb (by omega)] at h
        injection h

/-- Every fault a sprite raises names the site it was given. -/
theorem drawCell_error {site : FaultSite} {c : Nat} {k : Canvas} {f : Fault} (h : drawCell site c k = .error f) :
    f.site = some site := by
  rw [drawCell] at h
  split at h
  · injection h
  · injection h with h; subst h; rfl

/-- A fold's error comes from one of its steps. -/
theorem foldlM_error_of {β : Type} {g : β → Nat → Except Fault β} {P : Fault → Prop}
    (hg : ∀ b j f, g b j = .error f → P f) :
    ∀ (l : List Nat) (b : β) (f : Fault), l.foldlM g b = .error f → P f := by
  intro l
  induction l with
  | nil => intro b f h; injection h
  | cons j l ih =>
    intro b f h
    rw [List.foldlM_cons] at h
    cases hj : g b j with
    | ok b' => rw [hj] at h; exact ih b' f h
    | error e =>
      rw [hj] at h
      injection h with h
      exact h ▸ hg b j e hj

theorem drawSprite_error {site : FaultSite} {m : Memory} {a : Nat} {vx vy : RegVal} {n : Nat} {k : Canvas} {f : Fault}
    (h : drawSprite site m a vx vy n k = .error f) : f.site = some site := by
  refine foldlM_error_of (P := fun f => f.site = some site) ?_ _ _ _ h
  intro k row f h
  rw [memRead] at h
  split at h
  · refine foldlM_error_of (P := fun f => f.site = some site) ?_ _ _ _ h
    intro k col f h
    split at h
    · exact drawCell_error h
    · injection h
  · injection h with h; subst h; rfl

end Sys2Proof.Machine
end

