-- ==== Sys2Proof/Laws/Memory.lean ====
section
/-!
SUPPORT. Memory: what a read gives after a write, that every memory operation keeps the canonical form, and
one lemma for each multi-byte access that says when it succeeds and with what.
-/
namespace Sys2Proof.Machine

/-! ## The canonical form -/

theorem Memory.rising_tail {c : Host.Cell} {m : Memory} (h : Memory.rising (c :: m) = true) :
    Memory.rising m = true := by
  cases m with
  | nil => rfl
  | cons d m => simp only [Memory.rising, Bool.and_eq_true] at h; exact h.2

/-- Below the first listed address memory reads as unloaded. -/
theorem Memory.read_below {c : Host.Cell} {m : Memory} {a : Nat} (h : Memory.rising (c :: m) = true)
    (ha : a < c.1) : Memory.read (c :: m) a = unloadedByte a := by
  induction m generalizing c with
  | nil => simp [Memory.read, Nat.ne_of_lt ha]
  | cons d m ih =>
    simp only [Memory.rising, Bool.and_eq_true, decide_eq_true_eq] at h
    rw [Memory.read, if_neg (Nat.ne_of_lt ha)]
    exact ih h.2 (Nat.lt_trans ha h.1)

/-- Read after write. -/
theorem Memory.read_write {m : Memory} (h : m.rising = true) (a : Nat) (v : Byte) (b : Nat) :
    (m.write a v).read b = if b = a then v else m.read b := by
  induction m with
  | nil => by_cases hv : v = unloadedByte a <;> by_cases hb : b = a <;> simp_all [Memory.write, Memory.read]
  | cons c m ih =>
    obtain ⟨k, w⟩ := c
    have hbelow : ∀ x, x < k → Memory.read ((k, w) :: m) x = unloadedByte x := fun x hx => Memory.read_below h hx
    have ht := Memory.rising_tail h
    have hbelow' : Memory.read m k = unloadedByte k := by
      cases m with
      | nil => rfl
      | cons d m =>
        simp only [Memory.rising, Bool.and_eq_true, decide_eq_true_eq] at h
        exact Memory.read_below h.2 h.1
    rw [Memory.write]
    rcases Nat.lt_trichotomy a k with hak | hak | hak
    · rw [if_pos hak]
      split
      · next hv => by_cases hb : b = a <;> simp_all
      · by_cases hb : b = a <;> simp_all [Memory.read]
    · subst hak
      rw [if_neg (Nat.lt_irrefl _), if_pos rfl]
      split
      · next hv => by_cases hb : b = a <;> simp_all [Memory.read]
      · by_cases hb : b = a <;> simp_all [Memory.read]
    · rw [if_neg (by omega), if_neg (by omega), Memory.read, ih ht, Memory.read]
      by_cases hb : b = k
      · simp [hb, Nat.ne_of_lt hak]
      · simp [hb]

/-- The first address of a written memory is the written one or the first one before. -/
theorem Memory.rising_write_aux {m : Memory} (c : Host.Cell) (a : Nat) (v : Byte) (hc : c.1 < a)
    (h : Memory.rising (c :: m) = true) : Memory.rising (c :: m.write a v) = true := by
  induction m generalizing c with
  | nil => simp only [Memory.write]; split <;> simp_all [Memory.rising]
  | cons d m ih =>
    obtain ⟨k, w⟩ := d
    have h' := h
    simp only [Memory.rising, Bool.and_eq_true, decide_eq_true_eq] at h
    have hskip : Memory.rising (c :: m) = true := by
      cases m with
      | nil => rfl
      | cons e m =>
        have h2 := h.2
        simp only [Memory.rising, Bool.and_eq_true, decide_eq_true_eq] at h2 ⊢
        exact ⟨by omega, h2.2⟩
    rw [Memory.write]
    rcases Nat.lt_trichotomy a k with hak | hak | hak
    · rw [if_pos hak]
      split
      · exact h'
      · simp_all [Memory.rising]
    · subst hak
      rw [if_neg (Nat.lt_irrefl _), if_pos rfl]
      split
      · exact hskip
      · cases m with
        | nil => simp_all [Memory.rising]
        | cons e m => simp_all [Memory.rising]
    · rw [if_neg (by omega), if_neg (by omega)]
      have := ih (k, w) hak h.2
      simp_all [Memory.rising]

theorem Memory.rising_write {m : Memory} (h : m.rising = true) (a : Nat) (v : Byte) :
    (m.write a v).rising = true := by
  cases m with
  | nil => simp only [Memory.write]; split <;> rfl
  | cons c m =>
    obtain ⟨k, w⟩ := c
    rw [Memory.write]
    split
    · next hak => split <;> simp_all [Memory.rising]
    · split
      · next hak =>
        subst hak
        split
        · exact Memory.rising_tail h
        · cases m with
          | nil => rfl
          | cons e m => simp_all [Memory.rising]
      · exact Memory.rising_write_aux _ _ _ (by simp; omega) h

theorem Memory.cellsOk_cons (c : Host.Cell) (m : Memory) : Memory.cellsOk (c :: m) = true ↔
    (c.1 < Config.memSize ∧ c.2 ≠ unloadedByte c.1) ∧ Memory.cellsOk m = true := by
  rw [Memory.cellsOk, List.all_cons, Bool.and_eq_true, Bool.and_eq_true, decide_eq_true_eq, bne_iff_ne]
  rfl

theorem Memory.cellsOk_write {m : Memory} (h : m.cellsOk = true) {a : Nat} (ha : a < Config.memSize) (v : Byte) :
    (m.write a v).cellsOk = true := by
  induction m with
  | nil =>
    rw [Memory.write]
    split
    · rfl
    · next hv => exact (Memory.cellsOk_cons _ _).2 ⟨⟨ha, hv⟩, rfl⟩
  | cons c m ih =>
    obtain ⟨k, w⟩ := c
    have hc := (Memory.cellsOk_cons _ _).1 h
    rw [Memory.write]
    split
    · split
      · exact h
      · next hv => exact (Memory.cellsOk_cons _ _).2 ⟨⟨ha, hv⟩, h⟩
    · split
      · split
        · exact hc.2
        · next hv => exact (Memory.cellsOk_cons _ _).2 ⟨⟨ha, hv⟩, hc.2⟩
      · exact (Memory.cellsOk_cons _ _).2 ⟨hc.1, ih hc.2⟩

/-- A write to an address in memory keeps the canonical form. -/
theorem Memory.wf_write {m : Memory} (h : m.wf = true) {a : Nat} (ha : a < Config.memSize) (v : Byte) :
    (m.write a v).wf = true := by
  simp only [Memory.wf, Bool.and_eq_true] at h ⊢
  exact ⟨Memory.cellsOk_write h.1 ha v, Memory.rising_write h.2 a v⟩

theorem Memory.wf_rising {m : Memory} (h : m.wf = true) : m.rising = true := by
  simp only [Memory.wf, Bool.and_eq_true] at h; exact h.2

/-! ## Several bytes -/

theorem Memory.rising_writeAll {m : Memory} (h : m.rising = true) (a : Nat) (bs : List Byte) :
    (m.writeAll a bs).rising = true := by
  induction bs generalizing m a with
  | nil => exact h
  | cons b bs ih => exact ih (Memory.rising_write h a b) (a + 1)

/-- Bytes written inside memory keep the canonical form. -/
theorem Memory.wf_writeAll {m : Memory} (h : m.wf = true) {a : Nat} {bs : List Byte}
    (ha : a + bs.length ≤ Config.memSize) : (m.writeAll a bs).wf = true := by
  induction bs generalizing m a with
  | nil => exact h
  | cons b bs ih =>
    simp only [List.length_cons] at ha
    exact ih (Memory.wf_write h (by omega) b) (by omega)

/-- Reading after bytes were written at a, a + 1, .. -/
theorem Memory.read_writeAll {m : Memory} (h : m.rising = true) (a : Nat) (bs : List Byte) (b : Nat) :
    (m.writeAll a bs).read b = if a ≤ b then bs.getD (b - a) (m.read b) else m.read b := by
  induction bs generalizing m a with
  | nil => simp [Memory.writeAll]
  | cons v bs ih =>
    rw [Memory.writeAll, ih (Memory.rising_write h a v), Memory.read_write h]
    rcases Nat.lt_trichotomy a b with hab | hab | hab
    · have e : b - a = (b - (a + 1)) + 1 := by omega
      rw [if_pos (by omega), if_neg (by omega), if_pos (by omega), e, List.getD_cons_succ]
    · subst hab
      simp
    · rw [if_neg (by omega), if_neg (by omega), if_neg (by omega)]

/-- A multi-byte store inside memory writes every byte. -/
theorem storeBytes_fits (site : FaultSite) {m : Memory} {a : Nat} {bs : List Byte}
    (h : a + bs.length ≤ Config.memSize) : storeBytes site m a bs = .ok (m.writeAll a bs) := by
  induction bs generalizing m a with
  | nil => rfl
  | cons b bs ih =>
    simp only [List.length_cons] at h
    have ha : a < Config.memSize := by omega
    rw [storeBytes, memWrite, if_pos ha]
    exact ih (by omega)

/-- A multi-byte store that leaves memory faults at its lowest address outside. -/
theorem storeBytes_overflow (site : FaultSite) {m : Memory} {a : Nat} {bs : List Byte} (hb : bs ≠ [])
    (h : Config.memSize < a + bs.length) :
    storeBytes site m a bs = .error (.memoryRange site (max a Config.memSize)) := by
  induction bs generalizing m a with
  | nil => exact absurd rfl hb
  | cons b bs ih =>
    rw [storeBytes, memWrite]
    split
    · next ha =>
      simp only [List.length_cons] at h
      have hne : bs ≠ [] := by rintro rfl; simp at h; omega
      have := ih (m := m.write a b) (a := a + 1) hne (by omega)
      rw [show max a Config.memSize = max (a + 1) Config.memSize from by omega]
      exact this
    · next ha => rw [show max a Config.memSize = a from by omega]; rfl

/-- What a multi-byte store can answer. -/
theorem storeBytes_ok {site : FaultSite} {m m' : Memory} {a : Nat} {bs : List Byte}
    (h : storeBytes site m a bs = .ok m') :
    m' = m.writeAll a bs ∧ (bs = [] ∨ a + bs.length ≤ Config.memSize) := by
  by_cases hb : bs = []
  · subst hb
    injection h with h
    exact ⟨h.symm, .inl rfl⟩
  · by_cases hf : a + bs.length ≤ Config.memSize
    · rw [storeBytes_fits site hf] at h
      injection h with h
      exact ⟨h.symm, .inr hf⟩
    · rw [storeBytes_overflow site hb (by omega)] at h
      injection h

/-- A multi-byte load inside memory reads every byte. -/
theorem loadBytes_fits (site : FaultSite) {m : Memory} {a n : Nat} (h : a + n ≤ Config.memSize) :
    loadBytes site m a n = .ok ((List.range' a n).map m.read) := by
  induction n generalizing a with
  | zero => rfl
  | succ n ih =>
    have ha : a < Config.memSize := by omega
    rw [loadBytes, memRead, if_pos ha, ih (by omega)]
    rfl

/-- A multi-byte load that leaves memory faults at its lowest address outside. -/
theorem loadBytes_overflow (site : FaultSite) {m : Memory} {a n : Nat} (hn : n ≠ 0)
    (h : Config.memSize < a + n) :
    loadBytes site m a n = .error (.memoryRange site (max a Config.memSize)) := by
  induction n generalizing a with
  | zero => exact absurd rfl hn
  | succ n ih =>
    rw [loadBytes, memRead]
    split
    · next ha =>
      rw [ih (a := a + 1) (by omega) (by omega), show max a Config.memSize = max (a + 1) Config.memSize from by omega]
      rfl
    · next ha => rw [show max a Config.memSize = a from by omega]; rfl

/-- What a multi-byte load can answer. -/
theorem loadBytes_ok {site : FaultSite} {m : Memory} {a n : Nat} {bs : List Byte}
    (h : loadBytes site m a n = .ok bs) :
    bs = (List.range' a n).map m.read ∧ (n = 0 ∨ a + n ≤ Config.memSize) := by
  by_cases hn : n = 0
  · subst hn
    injection h with h
    exact ⟨h.symm, .inl rfl⟩
  · by_cases hf : a + n ≤ Config.memSize
    · rw [loadBytes_fits site hf] at h
      injection h with h
      exact ⟨h.symm, .inr hf⟩
    · rw [loadBytes_overflow site hn (by omega)] at h
      injection h

/-- A fetch inside memory reads the word of the two bytes. -/
theorem fetchWord_fits {s : State} (h : s.pc.toNat + 1 < Config.memSize) :
    fetchWord s = .ok (wordOfBytes (s.mem.read s.pc.toNat) (s.mem.read (s.pc.toNat + 1))) := by
  rw [fetchWord, memRead, memRead, if_pos (by omega), if_pos h]
  rfl

/-- What a fetch can answer: a word only where both bytes lie in memory. -/
theorem fetchWord_ok {s : State} {w : Word} (h : fetchWord s = .ok w) :
    s.pc.toNat + 1 < Config.memSize ∧
      w = wordOfBytes (s.mem.read s.pc.toNat) (s.mem.read (s.pc.toNat + 1)) := by
  by_cases hf : s.pc.toNat + 1 < Config.memSize
  · rw [fetchWord_fits hf] at h
    injection h with h
    exact ⟨hf, h.symm⟩
  · rw [fetchWord, memRead, memRead, if_neg hf] at h
    split at h <;> injection h

end Sys2Proof.Machine
end

