-- ==== Sys2Proof/Laws/Ops.lean ====
section
/-!
SUPPORT. One lemma for each shared operation that says what it can answer: settling an outcome, the call
stack, the key operand, the register range, the renderer call, the tick, and a whole Step.
-/
namespace Sys2Proof.Machine

/-! ## Outcomes -/

@[simp] theorem settle_ok (t : State) : settle (.ok t) = .next t := rfl
@[simp] theorem settle_error (f : Fault) : settle (.error f) = .fault f := rfl

theorem settle_next {e : Except Fault State} {t : State} : settle e = .next t ↔ e = .ok t := by
  cases e <;> simp [settle]

theorem settle_fault {e : Except Fault State} {f : Fault} : settle e = .fault f ↔ e = .error f := by
  cases e <;> simp [settle]

theorem settle_refused (e : Except Fault State) (r : Refusal) : settle e ≠ .refused r := by
  cases e <;> simp [settle]

/-- A bind that succeeds: its first part succeeds, then its second. -/
theorem bind_ok {α β : Type} {e : Except Fault α} {g : α → Except Fault β} {b : β} :
    (e >>= g) = .ok b ↔ ∃ a, e = .ok a ∧ g a = .ok b := by
  cases e with
  | ok a => exact ⟨fun h => ⟨a, rfl, h⟩, fun ⟨_, h, h'⟩ => by injection h with h; exact h ▸ h'⟩
  | error f => exact ⟨fun h => by injection h, fun ⟨_, h, _⟩ => by injection h⟩

/-- A bind that fails: its first part fails, or it succeeds and the second fails. -/
theorem bind_error {α β : Type} {e : Except Fault α} {g : α → Except Fault β} {f : Fault} :
    (e >>= g) = .error f ↔ e = .error f ∨ ∃ a, e = .ok a ∧ g a = .error f := by
  cases e with
  | ok a =>
    exact ⟨fun h => .inr ⟨a, rfl, h⟩, fun h => h.elim (fun h => by injection h)
      fun ⟨_, h, h'⟩ => by injection h with h; exact h ▸ h'⟩
  | error f' =>
    constructor
    · intro h; injection h with h; exact .inl (h ▸ rfl)
    · rintro (h | ⟨_, h, _⟩)
      · injection h with h; exact h ▸ rfl
      · injection h

/-! ## The call stack (10_state.md R28) -/

theorem push_room (site : FaultSite) {l : List RetAddr} (a : RetAddr) (h : l.length < Config.stackDepth) :
    push site l a = .ok (l ++ [a]) := if_pos h

theorem push_full (site : FaultSite) {l : List RetAddr} (a : RetAddr) (h : Config.stackDepth ≤ l.length) :
    push site l a = .error (.stackOverflow site) := if_neg (by omega)

theorem push_ok {site : FaultSite} {l l' : List RetAddr} {a : RetAddr} (h : push site l a = .ok l') :
    l.length < Config.stackDepth ∧ l' = l ++ [a] := by
  rw [push] at h
  split at h
  · next hl => injection h with h; exact ⟨hl, h.symm⟩
  · injection h

theorem push_error {site : FaultSite} {l : List RetAddr} {a : RetAddr} {f : Fault} (h : push site l a = .error f) :
    f = .stackOverflow site := by
  rw [push] at h
  split at h
  · injection h
  · injection h with h; exact h.symm

@[simp] theorem pop_concat (site : FaultSite) (l : List RetAddr) (a : RetAddr) : pop site (l ++ [a]) = .ok (a, l) := by
  simp [pop]

@[simp] theorem pop_nil (site : FaultSite) : pop site [] = .error (.stackUnderflow site) := rfl

theorem pop_ok {site : FaultSite} {l rest : List RetAddr} {a : RetAddr} (h : pop site l = .ok (a, rest)) :
    l = rest ++ [a] := by
  rcases List.eq_nil_or_concat l with rfl | ⟨m, b, rfl⟩
  · injection h
  · rw [List.concat_eq_append, pop_concat] at h
    injection h with h
    injection h with h h'
    rw [List.concat_eq_append, h, h']

theorem pop_error {site : FaultSite} {l : List RetAddr} {f : Fault} (h : pop site l = .error f) :
    f = .stackUnderflow site := by
  rcases List.eq_nil_or_concat l with rfl | ⟨m, b, rfl⟩
  · injection h with h; exact h.symm
  · rw [List.concat_eq_append, pop_concat] at h; injection h

/-! ## Keys -/

theorem keyOperand_key (site : FaultSite) {b : RegVal} {k : Key} (h : b.toNat = k.val) : keyOperand site b = .ok k := by
  have hlt : b.toNat < Config.nkeys := h ▸ k.isLt
  rw [keyOperand, dif_pos hlt]
  exact congrArg _ (Fin.ext h)

theorem keyOperand_range (site : FaultSite) {b : RegVal} (h : Config.nkeys ≤ b.toNat) :
    keyOperand site b = .error (.keyRange site b.toNat) := dif_neg (by omega)

theorem keyOperand_error {site : FaultSite} {b : RegVal} {f : Fault} (h : keyOperand site b = .error f) :
    f = .keyRange site b.toNat := by
  rw [keyOperand] at h
  split at h
  · injection h
  · injection h with h; exact h.symm

/-! ## The register range V0..Vx -/

theorem State.regsTo_length (s : State) (x : RegId) : (s.regsTo x).length = countTo x := by
  have := x.isLt
  simp only [State.regsTo, countTo, List.length_map, List.length_take, Vector.length_toList]
  omega

theorem State.regsTo_getD (s : State) {x r : RegId} (h : r ≤ x) (d : Byte) : (s.regsTo x).getD r.val d = s.reg r := by
  have hr : r.val ≤ x.val := h
  have hlt : r.val < (s.regsTo x).length := by rw [State.regsTo_length, countTo]; omega
  rw [List.getD_eq_getElem _ _ hlt]
  simp [State.regsTo, State.reg]

/-! ## The renderer call -/

theorem present_ok {s t : State} {i : Instr} (h : s.present i = .ok t) :
    s.input.drawOk = true ∧ t = s.emit (.renderDraw s.grid) := by
  simp only [State.present] at h
  split at h
  · next hd => injection h with h; exact ⟨hd, h.symm⟩
  · injection h

theorem present_error {s : State} {i : Instr} {f : Fault} (h : s.present i = .error f) :
    s.input.drawOk = false ∧ f = .renderFailure ((s.emit (.renderDraw s.grid)).faultSite i) := by
  simp only [State.present] at h
  split at h
  · injection h
  · next hd => injection h with h; exact ⟨by simpa using hd, h.symm⟩

/-! ## The countdown -/

theorem countDown_toNat (b : BitVec Config.timerBits) : (countDown b).toNat = b.toNat - 1 := by
  rw [countDown]
  split
  · next h => subst h; rfl
  · next h =>
    have hpos : 0 < b.toNat := by
      rcases Nat.eq_zero_or_pos b.toNat with h0 | h0
      · exact absurd (BitVec.eq_of_toNat_eq (by simpa using h0)) h
      · exact h0
    have : b.toNat < 256 := b.isLt
    rw [BitVec.toNat_sub_of_le (by rw [BitVec.le_def]; exact hpos)]
    rfl

/-! ## A Step -/

theorem finishCycle_next {o : Host.Outcome State Fault Refusal} {t : State} (h : finishCycle o = .next t) :
    ∃ u, o = .next u ∧ t = u.endCycle := by
  cases o with
  | next u => injection h with h; exact ⟨u, rfl, h.symm⟩
  | fault f => injection h
  | refused r => injection h

/-- Everything a Step that answers a next state can have done. -/
theorem step_next {s t : State} (h : step s = .next t) :
    s.status = .halted ∧ t = s ∨
    s.status = .running ∧ ∃ w i u, fetchWord (tick s) = .ok w ∧ decodeWord w = .op i ∧
      exec i ((tick s).setPc (nextPc s.pc)) = .next u ∧ t = u.endCycle := by
  rw [step, stepByStatus] at h
  split at h
  · next hs =>
    rw [cycle] at h
    split at h
    · next w hw =>
      rw [runWord] at h
      split at h
      · next i hi =>
        obtain ⟨u, hu, rfl⟩ := finishCycle_next h
        exact .inr ⟨hs, w, i, u, hw, hi, hu, rfl⟩
      · injection h
    · injection h
  · next hs => injection h with h; exact .inl ⟨hs, h.symm⟩
  · injection h

/-- Everything a Running core's Step that faults can have done. -/
theorem step_fault {s : State} {f : Fault} (hs : s.status = .running) (h : step s = .fault f) :
    fetchWord (tick s) = .error f ∨
    (∃ w w', fetchWord (tick s) = .ok w ∧ decodeWord w = .invalid w' ∧
      f = .invalidInstruction { pc := s.pc, word := some w', events := (tick s).events }) ∨
    ∃ w i, fetchWord (tick s) = .ok w ∧ decodeWord w = .op i ∧
      exec i ((tick s).setPc (nextPc s.pc)) = .fault f := by
  rw [step, stepByStatus, hs] at h
  simp only [cycle] at h
  split at h
  · next w hw =>
    rw [runWord] at h
    split at h
    · next i hi =>
      refine .inr (.inr ⟨w, i, hw, hi, ?_⟩)
      simp only [tick_pc] at h
      revert h
      cases exec i ((tick s).setPc (nextPc s.pc)) with
      | next u => intro h; injection h
      | fault g => intro h; injection h with h; exact h ▸ rfl
      | refused r => intro h; injection h
    · next w' hw' => injection h with h; exact .inr (.inl ⟨w, w', hw, hw', h.symm⟩)
  · next g hg => injection h with h; exact .inl (h ▸ hg)

/-- A Running core's Step where the fetched word decodes to an instruction. -/
theorem step_of_decoded {s : State} {w : Word} {i : Instr} (hs : s.status = .running)
    (hw : fetchWord (tick s) = .ok w) (hi : decodeWord w = .op i) :
    step s = finishCycle (exec i ((tick s).setPc (nextPc s.pc))) := by
  rw [step, stepByStatus, hs]
  simp only [cycle, hw, runWord, hi, tick_pc]

end Sys2Proof.Machine
end

