-- ==== Sys2Proof/Laws/Exec.lean ====
section
/-!
SUPPORT. What a fault can record, one lemma for each operation that raises one, and for a whole instruction;
the address after the next word; the frames; and the sprite terms of Safety.lean over memory.
-/
namespace Sys2Proof.Machine

/-! ## The program counter -/

theorem toNat_nextPc (a : Pc) : (nextPc a).toNat = (a.toNat + 2) % 65536 := by simp [nextPc]

/-- `ipc` is pc − 2 while an instruction executes. -/
theorem nextPc_sub_two (a : Pc) : nextPc a - 2 = a := by simp [nextPc]

/-! ## Frames -/

theorem SameBut.refl (s : State) : SameBut [] s s := by
  intro p _
  cases p <;> simp [Same]

/-- A write of one register. -/
theorem onlyRegs_setReg (s : State) (x : RegId) (b : RegVal) : OnlyRegs [x] s (s.setReg x b) := by
  refine ⟨fun r hr => by simp_all, ?_⟩
  intro p hp
  cases p <;> simp_all [Same]

/-! ## Faults -/

theorem memRead_error {site : FaultSite} {m : Memory} {a : Nat} {f : Fault} (h : memRead site m a = .error f) :
    f = .memoryRange site a := by
  rw [memRead] at h
  split at h
  · injection h
  · injection h with h; exact h.symm

theorem storeBytes_error {site : FaultSite} {m : Memory} {a : Nat} {bs : List Byte} {f : Fault}
    (h : storeBytes site m a bs = .error f) : f.site = some site := by
  by_cases hb : bs = []
  · subst hb; injection h
  · by_cases hf : a + bs.length ≤ Config.memSize
    · rw [storeBytes_fits site hf] at h; injection h
    · rw [storeBytes_overflow site hb (by omega)] at h; injection h with h; subst h; rfl

theorem loadBytes_error {site : FaultSite} {m : Memory} {a n : Nat} {f : Fault}
    (h : loadBytes site m a n = .error f) : f.site = some site := by
  by_cases hb : n = 0
  · subst hb; injection h
  · by_cases hf : a + n ≤ Config.memSize
    · rw [loadBytes_fits site hf] at h; injection h
    · rw [loadBytes_overflow site hb (by omega)] at h; injection h with h; subst h; rfl

theorem fetchWord_error {s : State} {f : Fault} (h : fetchWord s = .error f) : f.site = some s.fetchSite := by
  rcases bind_error.1 h with h1 | ⟨_, _, h1⟩
  · rw [memRead_error h1]; rfl
  · rcases bind_error.1 h1 with h2 | ⟨_, _, h2⟩
    · rw [memRead_error h2]; rfl
    · injection h2

/-- Whatever an instruction faults with, its record names ipc and the instruction's word, and the events
emitted before stand. -/
theorem exec_fault {i : Instr} {s : State} {f : Fault} (h : exec i s = .fault f) :
    ∃ site es, f.site = some site ∧ site.pc = s.pc - 2 ∧ site.word = some (encode i) ∧
      site.events = s.events ++ es := by
  have base : f.site = some (s.faultSite i) → ∃ site es, f.site = some site ∧ site.pc = s.pc - 2 ∧
      site.word = some (encode i) ∧ site.events = s.events ++ es :=
    fun h => ⟨_, [], h, rfl, rfl, by simp [State.faultSite]⟩
  cases i
  case ret =>
    rcases bind_error.1 (settle_fault.1 (show settle _ = _ from h)) with he | ⟨_, _, he⟩
    · exact base (by rw [pop_error he]; rfl)
    · injection he
  case call =>
    rcases bind_error.1 (settle_fault.1 (show settle _ = _ from h)) with he | ⟨_, _, he⟩
    · exact base (by rw [push_error he]; rfl)
    · injection he
  case skp =>
    rcases bind_error.1 (settle_fault.1 (show settle _ = _ from h)) with he | ⟨_, _, he⟩
    · exact base (by rw [keyOperand_error he]; rfl)
    · injection he
  case sknp =>
    rcases bind_error.1 (settle_fault.1 (show settle _ = _ from h)) with he | ⟨_, _, he⟩
    · exact base (by rw [keyOperand_error he]; rfl)
    · injection he
  case ldB =>
    rcases bind_error.1 (settle_fault.1 (show settle _ = _ from h)) with he | ⟨_, _, he⟩
    · exact base (storeBytes_error he)
    · injection he
  case storeRegs =>
    rcases bind_error.1 (settle_fault.1 (show settle _ = _ from h)) with he | ⟨_, _, he⟩
    · exact base (storeBytes_error he)
    · injection he
  case loadRegs =>
    rcases bind_error.1 (settle_fault.1 (show settle _ = _ from h)) with he | ⟨_, _, he⟩
    · exact base (loadBytes_error he)
    · injection he
  case drw =>
    rcases bind_error.1 (settle_fault.1 (show settle _ = _ from h)) with he | ⟨_, _, he⟩
    · exact base (drawSprite_error he)
    · obtain ⟨_, rfl⟩ := present_error he
      exact ⟨_, _, rfl, rfl, rfl, rfl⟩
  all_goals injection h

/-! ## Sprites -/

theorem spriteCovers_iff (s : State) (vx vy : RegVal) (n c : Nat) :
    SpriteCovers s vx vy n c ↔ Covers s.mem (s.effAddr 0) vx vy n c := by
  simp only [SpriteCovers, Covers, RowCovers, State.effAddr, Nat.add_zero]

theorem spriteFits_iff (s : State) (vx vy : RegVal) (n : Nat) :
    SpriteFits s vx vy n ↔ Fits s.mem (s.effAddr 0) vx vy n := by
  simp only [SpriteFits, Fits, State.effAddr, Nat.add_zero]

end Sys2Proof.Machine
end

