-- ==== Sys2Proof/Laws/PerInstr.lean ====
section
/-!
SUPPORT. Facts about every instruction as syntax, one lemma for each constructor. Family RoundTrip: a
well-formed instruction's word decodes to it.
-/
namespace Sys2Proof.Laws

/-- A well-formed instruction's word decodes to it (30_encoding.md R84 to R89). -/
def RoundTrip.Statement (i : Instr) : Prop := i.wellFormed = true → decodeWord (encode i) = .op i

theorem RoundTrip.cls : RoundTrip.Statement .cls := fun _ => by decide
theorem RoundTrip.ret : RoundTrip.Statement .ret := fun _ => by decide
theorem RoundTrip.sys (nnn : Addr12) : RoundTrip.Statement (.sys nnn) := by
  intro h
  simp only [Instr.wellFormed, Bool.and_eq_true, bne_iff_ne] at h
  simp [decodeWord, decode0, encode, h.1, h.2]
theorem RoundTrip.jp (nnn : Addr12) : RoundTrip.Statement (.jp nnn) := fun _ => by
  simp [decodeWord, encode]
theorem RoundTrip.call (nnn : Addr12) : RoundTrip.Statement (.call nnn) := fun _ => by
  simp [decodeWord, encode]
theorem RoundTrip.seImm (x : RegId) (kk : Byte) : RoundTrip.Statement (.seImm x kk) := fun _ => by
  simp [decodeWord, encode]
theorem RoundTrip.sneImm (x : RegId) (kk : Byte) : RoundTrip.Statement (.sneImm x kk) := fun _ => by
  simp [decodeWord, encode]
theorem RoundTrip.seReg (x y : RegId) : RoundTrip.Statement (.seReg x y) := fun _ => by
  simp [decodeWord, encode]
theorem RoundTrip.ldImm (x : RegId) (kk : Byte) : RoundTrip.Statement (.ldImm x kk) := fun _ => by
  simp [decodeWord, encode]
theorem RoundTrip.addImm (x : RegId) (kk : Byte) : RoundTrip.Statement (.addImm x kk) := fun _ => by
  simp [decodeWord, encode]
theorem RoundTrip.ldReg (x y : RegId) : RoundTrip.Statement (.ldReg x y) := fun _ => by
  simp [decodeWord, decode8, encode]
theorem RoundTrip.orReg (x y : RegId) : RoundTrip.Statement (.orReg x y) := fun _ => by
  simp [decodeWord, decode8, encode]
theorem RoundTrip.andReg (x y : RegId) : RoundTrip.Statement (.andReg x y) := fun _ => by
  simp [decodeWord, decode8, encode]
theorem RoundTrip.xorReg (x y : RegId) : RoundTrip.Statement (.xorReg x y) := fun _ => by
  simp [decodeWord, decode8, encode]
theorem RoundTrip.addReg (x y : RegId) : RoundTrip.Statement (.addReg x y) := fun _ => by
  simp [decodeWord, decode8, encode]
theorem RoundTrip.subReg (x y : RegId) : RoundTrip.Statement (.subReg x y) := fun _ => by
  simp [decodeWord, decode8, encode]
theorem RoundTrip.shr (x y : RegId) : RoundTrip.Statement (.shr x y) := fun _ => by
  simp [decodeWord, decode8, encode]
theorem RoundTrip.subnReg (x y : RegId) : RoundTrip.Statement (.subnReg x y) := fun _ => by
  simp [decodeWord, decode8, encode]
theorem RoundTrip.shl (x y : RegId) : RoundTrip.Statement (.shl x y) := fun _ => by
  simp [decodeWord, decode8, encode]
theorem RoundTrip.sneReg (x y : RegId) : RoundTrip.Statement (.sneReg x y) := fun _ => by
  simp [decodeWord, encode]
theorem RoundTrip.ldI (nnn : Addr12) : RoundTrip.Statement (.ldI nnn) := fun _ => by
  simp [decodeWord, encode]
theorem RoundTrip.jpV0 (nnn : Addr12) : RoundTrip.Statement (.jpV0 nnn) := fun _ => by
  simp [decodeWord, encode]
theorem RoundTrip.rnd (x : RegId) (kk : Byte) : RoundTrip.Statement (.rnd x kk) := fun _ => by
  simp [decodeWord, encode]
theorem RoundTrip.drw (x y : RegId) (n : Height) : RoundTrip.Statement (.drw x y n) := fun _ => by
  simp [decodeWord, encode]
theorem RoundTrip.skp (x : RegId) : RoundTrip.Statement (.skp x) := fun _ => by
  simp [decodeWord, decodeE, encode]
theorem RoundTrip.sknp (x : RegId) : RoundTrip.Statement (.sknp x) := fun _ => by
  simp [decodeWord, decodeE, encode]
theorem RoundTrip.ldFromDt (x : RegId) : RoundTrip.Statement (.ldFromDt x) := fun _ => by
  simp [decodeWord, decodeF, encode]
theorem RoundTrip.ldKey (x : RegId) : RoundTrip.Statement (.ldKey x) := fun _ => by
  simp [decodeWord, decodeF, encode]
theorem RoundTrip.ldToDt (x : RegId) : RoundTrip.Statement (.ldToDt x) := fun _ => by
  simp [decodeWord, decodeF, encode]
theorem RoundTrip.ldToSt (x : RegId) : RoundTrip.Statement (.ldToSt x) := fun _ => by
  simp [decodeWord, decodeF, encode]
theorem RoundTrip.addI (x : RegId) : RoundTrip.Statement (.addI x) := fun _ => by
  simp [decodeWord, decodeF, encode]
theorem RoundTrip.ldF (x : RegId) : RoundTrip.Statement (.ldF x) := fun _ => by
  simp [decodeWord, decodeF, encode]
theorem RoundTrip.ldB (x : RegId) : RoundTrip.Statement (.ldB x) := fun _ => by
  simp [decodeWord, decodeF, encode]
theorem RoundTrip.storeRegs (x : RegId) : RoundTrip.Statement (.storeRegs x) := fun _ => by
  simp [decodeWord, decodeF, encode]
theorem RoundTrip.loadRegs (x : RegId) : RoundTrip.Statement (.loadRegs x) := fun _ => by
  simp [decodeWord, decodeF, encode]

end Sys2Proof.Laws
end

