-- ==== Sys2Proof/Tests/Slice0.lean ====
section
/-!
SUPPORT. The model's own tests: well-formedness, one word of every constructor, one or two Steps of every
instruction, and for every statement with hypotheses a state and operands that meet them. The words are
the encodings of spec/opcode_table.json written out bit by bit; the expected results are the rows of
95_test_vectors.md named in front of them, or worked out by hand from the rule named.
-/
namespace Sys2Proof.Tests

open Sys2Proof Sys2Proof.Machine

/-! ## Well-formedness (30_encoding.md R84): the check refuses the two words that are no SYS -/

theorem test_sys_cls_illFormed : (Instr.sys 0x0E0#12).wellFormed = false := by decide
theorem test_sys_ret_illFormed : (Instr.sys 0x0EE#12).wellFormed = false := by decide
theorem test_sys_wellFormed : (Instr.sys 0x0E1#12).wellFormed = true := by decide

/-! ## Decoding: f, then nnn, or x and kk, or x, y and n; here nnn = 9C5, x = A, y = 3, n = 6, kk = C9 -/

theorem test_decode_cls : decodeWord 0b0000000011100000#16 = .op .cls := by decide
theorem test_decode_ret : decodeWord 0b0000000011101110#16 = .op .ret := by decide
theorem test_decode_sys : decodeWord 0b0000100111000101#16 = .op (.sys 0x9C5#12) := by decide
theorem test_decode_jp : decodeWord 0b0001100111000101#16 = .op (.jp 0x9C5#12) := by decide
theorem test_decode_call : decodeWord 0b0010100111000101#16 = .op (.call 0x9C5#12) := by decide
theorem test_decode_seImm : decodeWord 0b0011101011001001#16 = .op (.seImm 0xA 0xC9#8) := by decide
theorem test_decode_sneImm : decodeWord 0b0100101011001001#16 = .op (.sneImm 0xA 0xC9#8) := by decide
theorem test_decode_seReg : decodeWord 0b0101101000110000#16 = .op (.seReg 0xA 0x3) := by decide
theorem test_decode_ldImm : decodeWord 0b0110101011001001#16 = .op (.ldImm 0xA 0xC9#8) := by decide
theorem test_decode_addImm : decodeWord 0b0111101011001001#16 = .op (.addImm 0xA 0xC9#8) := by decide
theorem test_decode_ldReg : decodeWord 0b1000101000110000#16 = .op (.ldReg 0xA 0x3) := by decide
theorem test_decode_orReg : decodeWord 0b1000101000110001#16 = .op (.orReg 0xA 0x3) := by decide
theorem test_decode_andReg : decodeWord 0b1000101000110010#16 = .op (.andReg 0xA 0x3) := by decide
theorem test_decode_xorReg : decodeWord 0b1000101000110011#16 = .op (.xorReg 0xA 0x3) := by decide
theorem test_decode_addReg : decodeWord 0b1000101000110100#16 = .op (.addReg 0xA 0x3) := by decide
theorem test_decode_subReg : decodeWord 0b1000101000110101#16 = .op (.subReg 0xA 0x3) := by decide
theorem test_decode_shr : decodeWord 0b1000101000110110#16 = .op (.shr 0xA 0x3) := by decide
theorem test_decode_subnReg : decodeWord 0b1000101000110111#16 = .op (.subnReg 0xA 0x3) := by decide
theorem test_decode_shl : decodeWord 0b1000101000111110#16 = .op (.shl 0xA 0x3) := by decide
theorem test_decode_sneReg : decodeWord 0b1001101000110000#16 = .op (.sneReg 0xA 0x3) := by decide
theorem test_decode_ldI : decodeWord 0b1010100111000101#16 = .op (.ldI 0x9C5#12) := by decide
theorem test_decode_jpV0 : decodeWord 0b1011100111000101#16 = .op (.jpV0 0x9C5#12) := by decide
theorem test_decode_rnd : decodeWord 0b1100101011001001#16 = .op (.rnd 0xA 0xC9#8) := by decide
theorem test_decode_drw : decodeWord 0b1101101000110110#16 = .op (.drw 0xA 0x3 0x6) := by decide
theorem test_decode_skp : decodeWord 0b1110101010011110#16 = .op (.skp 0xA) := by decide
theorem test_decode_sknp : decodeWord 0b1110101010100001#16 = .op (.sknp 0xA) := by decide
theorem test_decode_ldFromDt : decodeWord 0b1111101000000111#16 = .op (.ldFromDt 0xA) := by decide
theorem test_decode_ldKey : decodeWord 0b1111101000001010#16 = .op (.ldKey 0xA) := by decide
theorem test_decode_ldToDt : decodeWord 0b1111101000010101#16 = .op (.ldToDt 0xA) := by decide
theorem test_decode_ldToSt : decodeWord 0b1111101000011000#16 = .op (.ldToSt 0xA) := by decide
theorem test_decode_addI : decodeWord 0b1111101000011110#16 = .op (.addI 0xA) := by decide
theorem test_decode_ldF : decodeWord 0b1111101000101001#16 = .op (.ldF 0xA) := by decide
theorem test_decode_ldB : decodeWord 0b1111101000110011#16 = .op (.ldB 0xA) := by decide
theorem test_decode_storeRegs : decodeWord 0b1111101001010101#16 = .op (.storeRegs 0xA) := by decide
theorem test_decode_loadRegs : decodeWord 0b1111101001100101#16 = .op (.loadRegs 0xA) := by decide

/-- R91: words of every invalid form (E8, E10, E11, E15, E17). -/
theorem test_decode_invalid : [0x5121#16, 0x9AB1#16, 0x8008#16, 0xE09F#16, 0xF000#16].map decodeWord =
    [.invalid 0x5121#16, .invalid 0x9AB1#16, .invalid 0x8008#16, .invalid 0xE09F#16, .invalid 0xF000#16] := by
  decide

/-- R58: high byte first, and what follows is left. -/
theorem test_decode_bytes : decode [0x1A, 0xBC, 0x77] = .ok (.jp 0xABC#12, [0x77]) := rfl
theorem test_decode_truncated : decode [0x1A] = .error .truncated := rfl
theorem test_decodeTableWord : decodeTableWord 16 0xF065 = some (.loadRegs 0) := by decide
theorem test_decodeTableWord_invalid : decodeTableWord 16 0xF01F = none := by decide

/-! ## One Step -/

/-- The inputs of the Step under test: no time passes, rb = AB, key A is down, the key-wait answers 7, the
renderer answers ok. -/
def quiet : StepInput := ⟨0, 0xAB, [0xA], some 7, true⟩

/-- The reset state with those inputs laid down. -/
def boot : State := State.reset.withInput quiet

/-- The next state, if an outcome is one. -/
def nextOf : Host.Outcome State Fault Refusal → Option State
  | .next t => some t
  | _ => none

/-- The state after one Step on the word w placed at pc. -/
def ran (s : State) (w : Nat) : Option State := nextOf (step (s.withFetchWord 16 w))

/-- The fault of one Step on the word w placed at pc. -/
def stopped (s : State) (w : Nat) : Option Fault :=
  match step (s.withFetchWord 16 w) with
  | .fault f => some f
  | _ => none

/-- A fault's record: code, pc, word, info (60_exceptions.md R191). -/
def record (f : Fault) : Nat × Option Pc × Option Word × Option Nat := (f.code, f.pc, f.word, f.info)

/-- A state with bytes stored at 0x300 on, and I there. -/
def withBytes (s : State) (bs : List Byte) : State := (s.setMem (s.mem.writeAll 0x300 bs)).setI 0x300

/-- D14 -/
theorem test_cls : (ran ((boot.setGrid (1 + 32 + BitVec.twoPow _ 2047)).setReg 0xF 3) 0x00E0).map
    (fun t => (t.grid, t.reg 0xF, t.events, t.pc)) = some (0, 3, [.renderClear], 0x202) := by decide +kernel
/-- CF5 -/
theorem test_ret : (ran (boot.setStack [0x300, 0x400]) 0x00EE).map (fun t => (t.pc, t.stack)) =
    some (0x400, [0x300]) := by decide
/-- CF4 -/
theorem test_ret_empty : (stopped boot 0x00EE).map record = some (2, some 0x200, some 0x00EE, none) := by decide
/-- CF18 -/
theorem test_sys : (ran boot 0x0123).map (fun t => (t.pc, t.v, t.i, t.stack)) =
    some (0x202, boot.v, 0, []) := by decide
/-- W2 -/
theorem test_jp : (ran boot 0x1ABC).map (·.pc) = some 0xABC := by decide
/-- W3 -/
theorem test_call : (ran boot 0x2204).map (fun t => (t.pc, t.stack)) = some (0x204, [0x202]) := by decide
/-- CF3 -/
theorem test_call_full : (stopped (boot.setStack (List.replicate 24 0x202)) 0x2300).map record =
    some (3, some 0x200, some 0x2300, none) := by decide
/-- W4 -/
theorem test_seImm : ((ran (boot.setReg 0xA 0xF0) 0x3AF0).map (·.pc), (ran boot 0x3AF0).map (·.pc)) =
    (some 0x204, some 0x202) := by decide
/-- CF16, CF17 -/
theorem test_sneImm : ((ran (boot.setReg 3 0x10) 0x4311).map (·.pc), (ran (boot.setReg 3 0x11) 0x4311).map (·.pc)) =
    (some 0x204, some 0x202) := by decide
/-- CF12, CF13 -/
theorem test_seReg : ((ran ((boot.setReg 1 7).setReg 2 7) 0x5120).map (·.pc),
    (ran ((boot.setReg 1 7).setReg 2 8) 0x5120).map (·.pc)) = (some 0x204, some 0x202) := by decide
/-- CF14, CF15 -/
theorem test_sneReg : ((ran ((boot.setReg 1 7).setReg 2 8) 0x9120).map (·.pc),
    (ran (boot.setReg 1 7) 0x9110).map (·.pc)) = (some 0x204, some 0x202) := by decide
/-- CF11 -/
theorem test_jpV0 : (ran (boot.setReg 0 0xFF) 0xBFFF).map (·.pc) = some 0x10FE := by decide

/-- A1 -/
theorem test_ldImm : (ran boot 0x6A42).map (·.reg 0xA) = some 0x42 := by decide
/-- A2 -/
theorem test_addImm : (ran ((boot.setReg 2 0xF0).setReg 0xF 5) 0x7220).map (fun t => (t.reg 2, t.reg 0xF)) =
    some (0x10, 5) := by decide
/-- A4 -/
theorem test_ldReg : (ran (boot.setReg 1 9) 0x8010).map (fun t => (t.reg 0, t.reg 1)) = some (9, 9) := by decide
/-- A5 -/
theorem test_orReg : (ran (((boot.setReg 0 0x0F).setReg 1 0xF0).setReg 0xF 7) 0x8011).map
    (fun t => (t.reg 0, t.reg 0xF)) = some (0xFF, 7) := by decide
/-- A6 -/
theorem test_andReg : (ran ((boot.setReg 0 0x3C).setReg 1 0x0F) 0x8012).map (·.reg 0) = some 0x0C := by decide
/-- A7 -/
theorem test_xorReg : (ran ((boot.setReg 0 0xFF).setReg 1 0x0F) 0x8013).map (·.reg 0) = some 0xF0 := by decide
/-- W5 -/
theorem test_addReg : (ran ((boot.setReg 0xA 0xFF).setReg 0xB 0x10) 0x8AB4).map (fun t => (t.reg 0xA, t.reg 0xF)) =
    some (0x0F, 1) := by decide
/-- A13 -/
theorem test_addReg_vf : (ran ((boot.setReg 0xF 0x80).setReg 1 0x80) 0x8F14).map (·.reg 0xF) = some 1 := by decide
/-- A16 -/
theorem test_subReg : (ran ((boot.setReg 1 3).setReg 2 5) 0x8125).map (fun t => (t.reg 1, t.reg 0xF)) =
    some (0xFE, 0) := by decide
/-- A17 -/
theorem test_subReg_same : (ran (boot.setReg 1 9) 0x8115).map (fun t => (t.reg 1, t.reg 0xF)) =
    some (0, 1) := by decide
/-- A22 -/
theorem test_shr : (ran ((boot.setReg 0xA 0x55).setReg 0xB 3) 0x8AB6).map
    (fun t => (t.reg 0xA, t.reg 0xB, t.reg 0xF)) = some (1, 1, 1) := by decide
/-- A25 -/
theorem test_shr_vf : (ran ((boot.setReg 1 0xAA).setReg 0xF 7) 0x81F6).map (fun t => (t.reg 1, t.reg 0xF)) =
    some (3, 1) := by decide
/-- A20 -/
theorem test_subnReg : (ran ((boot.setReg 1 3).setReg 2 2) 0x8127).map (fun t => (t.reg 1, t.reg 0xF)) =
    some (0xFF, 0) := by decide
/-- A27 -/
theorem test_shl : (ran (boot.setReg 2 0x81) 0x812E).map (fun t => (t.reg 1, t.reg 2, t.reg 0xF)) =
    some (2, 2, 1) := by decide
/-- A31 -/
theorem test_rnd : (ran boot 0xC00F).map (·.reg 0) = some 0x0B := by decide

/-- M1 -/
theorem test_ldI : (ran boot 0xA2F0).map (·.i) = some 0x2F0 := by decide
/-- W7 -/
theorem test_addI : (ran ((boot.setReg 0xA 42).setI 4095) 0xFA1E).map (fun t => (t.i, t.reg 0xF)) =
    some (4137, 0) := by decide
/-- M3 -/
theorem test_addI_carry : (ran ((boot.setReg 0 1).setI 0xFFFF) 0xF01E).map (fun t => (t.i, t.reg 0xF)) =
    some (0, 1) := by decide
/-- M8 -/
theorem test_ldF : (ran (boot.setReg 3 0xFF) 0xF329).map (·.i) = some 1275 := by decide
/-- W8 -/
theorem test_ldB : (ran ((boot.setReg 0xA 123).setI 2000) 0xFA33).map (fun t => ([2000, 2001, 2002].map t.mem.read, t.i)) =
    some ([1, 2, 3], 2000) := by decide
/-- M12 -/
theorem test_ldB_range : (stopped ((boot.setReg 0 123).setI 0xFFE) 0xF033).map record =
    some (4, some 0x200, some 0xF033, some 0x1000) := by decide
/-- M14 -/
theorem test_storeRegs : (ran (((boot.setReg 0 1).setReg 1 2).setI 0x300) 0xF155).map
    (fun t => ([0x300, 0x301, 0x302].map t.mem.read, t.i)) = some ([1, 2, 0], 0x302) := by decide
/-- M17 -/
theorem test_storeRegs_range : (stopped (boot.setI 0xFF1) 0xFF55).map record =
    some (4, some 0x200, some 0xFF55, some 0x1000) := by decide
/-- M18 -/
theorem test_loadRegs : (ran ((withBytes boot [7, 8, 9]).setReg 2 5) 0xF165).map
    (fun t => ([0, 1, 2].map t.reg, t.i)) = some ([7, 8, 5], 0x302) := by decide
/-- M20 -/
theorem test_loadRegs_range : (stopped (boot.setI 0x1000) 0xF065).map record =
    some (4, some 0x200, some 0xF065, some 0x1000) := by decide

/-- D5 -/
theorem test_drw : (ran (boot.setReg 0 62) 0xD011).map (fun t => (t.grid, t.reg 0xF, t.events)) =
    some (0xF#2048 <<< 62, 0, [.renderDraw (0xF#2048 <<< 62)]) := by decide +kernel
/-- D13 -/
theorem test_drw_collision : (ran (withBytes (boot.setGrid 2) [0xC0]) 0xD011).map (fun t => (t.grid, t.reg 0xF)) =
    some (1, 1) := by decide +kernel
/-- D6 -/
theorem test_drw_gridRange : (stopped (withBytes (boot.setReg 1 31) [0x80, 0x80]) 0xD012).map record =
    some (5, some 0x200, some 0xD012, some 0x800) := by decide

/-- K1, K2 -/
theorem test_skp : ((ran (boot.setReg 5 0xA) 0xE59E).map (·.pc), (ran (boot.setReg 5 0xB) 0xE59E).map (·.pc)) =
    (some 0x204, some 0x202) := by decide
/-- K5 -/
theorem test_skp_range : (stopped (boot.setReg 5 0x10) 0xE59E).map record =
    some (8, some 0x200, some 0xE59E, some 16) := by decide
/-- K3, K4 -/
theorem test_sknp : ((ran (boot.setReg 5 0xB) 0xE5A1).map (·.pc), (ran (boot.setReg 5 0xA) 0xE5A1).map (·.pc)) =
    (some 0x204, some 0x202) := by decide
/-- K9 -/
theorem test_ldFromDt : (ran (boot.setDt 0x3C) 0xF307).map (·.reg 3) = some 0x3C := by decide
/-- K7 -/
theorem test_ldKey : (ran boot 0xF20A).map (fun t => (t.reg 2, t.status)) = some (7, .running) := by decide
/-- K8 -/
theorem test_ldKey_none : transact ((State.reset.setReg 2 9).withFetchWord 16 0xF20A) ⟨0, 0, [], none, true⟩ =
    (((((State.reset.setReg 2 9).withFetchWord 16 0xF20A).setPc 0x202).setStatus .halted).endCycle, .stops) := by
  decide +kernel
/-- K10 -/
theorem test_ldToDt : (ran (boot.setReg 3 60) 0xF315).map (·.dt) = some 60 := by decide
/-- K11 -/
theorem test_ldToSt : (ran (boot.setReg 3 2) 0xF318).map (fun t => (t.st, t.events)) = some (2, []) := by decide

/-- W10: the bytes and the fetch address. -/
theorem test_invalid : (stopped boot 0xFFFF).map record = some (1, some 0x200, some 0xFFFF, none) := by decide
/-- CF9: the fetch at 0xFFF faults on its second byte. -/
theorem test_fetch_range : (stopped (boot.setPc 0xFFF) 0x1200).map record =
    some (4, some 0xFFF, none, some 0x1000) := by decide

/-- T1 to T4: DT = 5, ST = 3, by the time elapsed. -/
theorem test_tick : [249999999, 250000000, 999999999, 1000000000].map (fun e =>
    let t := tick (((State.reset.setDt 5).setSt 3).withInput ⟨e, 0, [], none, true⟩)
    (t.dt, t.st, t.lastTick, t.events)) =
    [(5, 3, 0, []), (5, 3, 0, [.toneStop]), (5, 3, 0, [.toneStop]), (4, 2, 1000000000, [.toneStart])] := by decide
/-- T5, T6: no catch-up, and 0 stays 0. -/
theorem test_tick_zero : [(5#8, 3000000000), (0#8, 1000000000)].map (fun p =>
    let t := tick ((State.reset.setDt p.1).withInput ⟨p.2, 0, [], none, true⟩)
    (t.dt, t.st, t.lastTick, t.events)) = [(4, 0, 3000000000, []), (0, 0, 1000000000, [])] := by decide

/-- R54: the 80 bytes of the font table in reset memory, and the byte after it. -/
theorem test_font : (List.range 81).map State.reset.mem.read =
    [0xF0, 0x90, 0x90, 0x90, 0xF0, 0x20, 0x60, 0x20, 0x20, 0x70, 0xF0, 0x10, 0xF0, 0x80, 0xF0] ++
    [0xF0, 0x10, 0xF0, 0x10, 0xF0, 0x90, 0x90, 0xF0, 0x10, 0x10, 0xF0, 0x80, 0xF0, 0x10, 0xF0] ++
    [0xF0, 0x80, 0xF0, 0x90, 0xF0, 0xF0, 0x10, 0x20, 0x40, 0x40, 0xF0, 0x90, 0xF0, 0x90, 0xF0] ++
    [0xF0, 0x90, 0xF0, 0x10, 0xF0, 0xF0, 0x90, 0xF0, 0x90, 0x90, 0xE0, 0x90, 0xE0, 0x90, 0xE0] ++
    [0xF0, 0x80, 0x80, 0x80, 0xF0, 0xE0, 0x90, 0x90, 0x90, 0xE0, 0xF0, 0x80, 0xF0, 0x80, 0xF0] ++
    [0xF0, 0x80, 0xF0, 0x80, 0x80] ++ [0x00] := by decide

/-- R-1 -/
theorem test_load : load [0x12, 0x00] 7 =
    .next { State.reset with mem := [(0x200, 0x12)], lastTick := 7, clock := 7 } := by rfl

/-! ## Witnesses: for each statement with hypotheses a state and operands that meet them

A statement with several clauses has one for each, at a boundary of its range. -/

theorem witness_DecodesFamilyZero : (0x0E1#12 : Addr12) ≠ 0x0E0#12 ∧ (0x0E1#12 : Addr12) ≠ 0x0EE#12 ∧
    (0x0ED#12 : Addr12) ≠ 0x0E0#12 ∧ (0x0ED#12 : Addr12) ≠ 0x0EE#12 := by decide
theorem witness_DecodesFamiliesFiveAndNine : (0x1#4 : BitVec 4) ≠ 0x0#4 ∧ (0xF#4 : BitVec 4) ≠ 0x0#4 := by decide
theorem witness_DecodesFamilyEight : 0x8#4 ∈ [0x8#4, 0x9#4, 0xA#4, 0xB#4, 0xC#4, 0xD#4, 0xF#4] ∧
    0xF#4 ∈ [0x8#4, 0x9#4, 0xA#4, 0xB#4, 0xC#4, 0xD#4, 0xF#4] := by decide
theorem witness_DecodesFamiliesEAndF : 0x9F#8 ∉ [0x9E#8, 0xA1#8] ∧
    0x66#8 ∉ [0x07#8, 0x0A#8, 0x15#8, 0x18#8, 0x1E#8, 0x29#8, 0x33#8, 0x55#8, 0x65#8] := by decide
theorem witness_DecodeOfEncode : (Instr.sys 0x0E1#12).wellFormed = true ∧ (Instr.drw 0xF 0xF 0xF).wellFormed = true := by
  decide
theorem witness_EncodeOfDecode : decodeWord 0x8AB4#16 = .op (.addReg 0xA 0xB) := by decide
theorem witness_SysChangesNothing : (0xFFF#12 : Addr12) ≠ 0x0E0#12 ∧ (0xFFF#12 : Addr12) ≠ 0x0EE#12 ∧
    (boot.setPc 4094).status = .running ∧ (boot.setPc 4094).pc.toNat + 1 < 4096 ∧ (0x000#12 : Addr12) ≠ 0x0E0#12 ∧
    (0x000#12 : Addr12) ≠ 0x0EE#12 ∧ (boot.setPc 4094).mem.read (boot.setPc 4094).pc.toNat ++
      (boot.setPc 4094).mem.read ((boot.setPc 4094).pc.toNat + 1) = (0x0#4 ++ 0x000#12 : BitVec 16) := by decide
theorem witness_CallPushesReturn_room : (boot.setStack (List.replicate 23 0x202)).stack.length < 24 := by decide
theorem witness_CallPushesReturn_full : (boot.setStack (List.replicate 24 0x202)).stack.length = 24 := by decide
theorem witness_ReturnPops_entry : (boot.setStack [0x300, 0x400]).stack = [0x300] ++ [0x400] := by decide
theorem witness_ReturnPops_empty : boot.stack = [] := by decide
theorem witness_SkipsOnRegisters : (0x1#4 : BitVec 4) ≠ 0x0#4 := by decide
theorem witness_ReturnUndoesCall : exec (.call 0x300) boot = .next ((boot.setStack [0x200]).setPc 0x300) ∧
    (boot.setStack [0x200]).stack = ((boot.setStack [0x200]).setPc 0x300).stack := ⟨rfl, rfl⟩
theorem witness_AddSetsCarry : (0xE : RegId) ≠ vf := by decide
theorem witness_SubtractSetsNotBorrow : (0 : RegId) ≠ vf := by decide
theorem witness_ShiftsTakeVy : (1 : RegId) ≠ vf ∧ ((1 : RegId) = 1 ∨ (1 : RegId) = 2) ∧ (2 : RegId) ≠ vf ∧
    ((2 : RegId) = 1 ∨ (2 : RegId) = 2) := by decide
theorem witness_AddToIndex : (0xE : RegId) ≠ vf := by decide
theorem witness_FontGlyphAddress : 15 < 16 ∧ 4 < 5 ∧ ((boot.setReg 3 15).reg 3).toNat = 15 := by decide
theorem witness_BcdStoresDigits_fits : (boot.setI 0xFFD).mem.wf = true ∧ (boot.setI 0xFFD).effAddr 2 < 4096 := by decide
theorem witness_BcdStoresDigits_range : 4096 ≤ (boot.setI 0xFFE).effAddr 2 ∧ (boot.setI 0xFFE).effAddr 0 < 4096 ∧
    4096 ≤ (boot.setI 0x1000).effAddr 2 ∧ (boot.setI 0x1000).effAddr 0 ≥ 4096 := by decide
theorem witness_StoreRegisters_fits : (boot.setI 0xFF0).mem.wf = true ∧
    (boot.setI 0xFF0).effAddr (0xF#4).toNat < 4096 := by decide
theorem witness_StoreRegisters_range : 4096 ≤ (boot.setI 0xFF1).effAddr (0xF#4).toNat ∧
    4096 ≤ (boot.setI 0x1000).effAddr (0x0#4).toNat := by decide
theorem witness_LoadRegisters_fits : (boot.setI 0xFF0).effAddr (0xF#4).toNat < 4096 := by decide
theorem witness_LoadRegisters_range : 4096 ≤ (boot.setI 0xFF1).effAddr (0xF#4).toNat ∧
    4096 ≤ (boot.setI 0x1000).effAddr (0x0#4).toNat := by decide

/-- V0 = 12, V1 = 34 and I = 0x300, and what LD [I],V1 makes of it. -/
def stored : State := ((boot.setReg 0 0x12).setReg 1 0x34).setI 0x300

theorem witness_LoadUndoesStore : stored.mem.wf = true ∧
    exec (.storeRegs 1) stored = .next ((stored.setMem [(0x300, 0x12), (0x301, 0x34)]).setI 0x302) ∧
    (∀ a, (stored.setMem [(0x300, 0x12), (0x301, 0x34)]).mem.read a =
      ((stored.setMem [(0x300, 0x12), (0x301, 0x34)]).setI 0x302).mem.read a) ∧
    (stored.setMem [(0x300, 0x12), (0x301, 0x34)]).i = stored.i := ⟨rfl, rfl, fun _ => rfl, rfl⟩
theorem witness_FetchSeesStore : stored.mem.wf = true ∧
    exec (.storeRegs 1) stored = .next ((stored.setMem [(0x300, 0x12), (0x301, 0x34)]).setI 0x302) ∧
    (0 : RegId).val + 1 = (1 : RegId).val ∧ (1 : RegId) ≤ 1 ∧
    (∀ a, ((stored.setMem [(0x300, 0x12), (0x301, 0x34)]).setPc 0x300).mem.read a =
      ((stored.setMem [(0x300, 0x12), (0x301, 0x34)]).setI 0x302).mem.read a) ∧
    ((stored.setMem [(0x300, 0x12), (0x301, 0x34)]).setPc 0x300).pc.toNat = stored.effAddr (0 : RegId).val :=
  ⟨rfl, rfl, rfl, by decide, fun _ => rfl, rfl⟩

/-- A sprite of the two rows 80, 80 at 0x300, to be drawn at column V0 = 63 and row V1. -/
def sprite (row : Byte) : State := (withBytes boot [0x80, 0x80]).setReg 0 63 |>.setReg 1 row

/-- Rows 30 and 31: the second row's cell is 2047, the grid's last. -/
theorem witness_DrawXorsSprite : SpriteFits (sprite 30) ((sprite 30).reg 0) ((sprite 30).reg 1) (2 : Height).val ∧
    (sprite 30).input.drawOk = true ∧ SpriteCovers (sprite 30) ((sprite 30).reg 0) ((sprite 30).reg 1) 2 2047 := by
  unfold SpriteFits SpriteCovers
  decide
/-- The same cells, one of them lit before; and a cell not under the sprite. -/
theorem witness_DrawXorsSprite_lit : SpriteCovers (sprite 30) ((sprite 30).reg 0) ((sprite 30).reg 1) 2 1983 ∧
    ¬ SpriteCovers (sprite 30) ((sprite 30).reg 0) ((sprite 30).reg 1) 2 0 ∧
    Grid.lit ((sprite 30).setGrid (BitVec.twoPow _ 1983)).grid 1983 = true := by
  unfold SpriteCovers
  exact ⟨by decide, by decide, by decide +kernel⟩
/-- Row 1 of a sprite at I = 0xFFF is at 4096. -/
theorem witness_DrawFaultsInOrder_memory :
    SpriteFits (boot.setI 0xFFF) ((boot.setI 0xFFF).reg 0) ((boot.setI 0xFFF).reg 1) 1 ∧
    1 < (2 : Height).val ∧ 4096 ≤ (boot.setI 0xFFF).effAddr 1 := by
  unfold SpriteFits
  decide
/-- Rows 31 and 32: the second row's cell would be 2111. -/
theorem witness_DrawFaultsInOrder_grid :
    1 < (2 : Height).val ∧ 0 < 8 ∧ SpriteFits (sprite 31) ((sprite 31).reg 0) ((sprite 31).reg 1) 1 ∧
    (sprite 31).effAddr 1 < 4096 ∧
    (∀ k < 0, spriteBit ((sprite 31).mem.read ((sprite 31).effAddr 1)) k = true →
      cellIndex ((sprite 31).reg 0) ((sprite 31).reg 1) 1 k < 2048) ∧
    spriteBit ((sprite 31).mem.read ((sprite 31).effAddr 1)) 0 = true ∧
    2048 ≤ cellIndex ((sprite 31).reg 0) ((sprite 31).reg 1) 1 0 := by
  unfold SpriteFits
  decide
theorem witness_DrawFaultsInOrder_render :
    SpriteFits (State.reset.withInput ⟨0, 0, [], none, false⟩) 0 0 (5 : Height).val ∧
    (State.reset.withInput ⟨0, 0, [], none, false⟩).input.drawOk = false := by
  unfold SpriteFits
  decide

/-- One row 80 at 0x300, drawn at column V0 and row V1, both 0: cell 0. -/
def dot (g : Grid) : State := (withBytes boot [0x80]).setGrid g

theorem witness_DrawTwiceRestores_dark : (nextOf (exec (.drw 0 1 1) (dot 0))).map (fun t => (t.reg 0, t.reg 1)) =
    some ((dot 0).reg 0, (dot 0).reg 1) ∧ Grid.lit (dot 0).grid 0 = false := by decide +kernel
theorem witness_DrawTwiceRestores_covered : SpriteCovers (dot 0) ((dot 0).reg 0) ((dot 0).reg 1) 1 0 ∧
    SpriteCovers (dot 1) ((dot 1).reg 0) ((dot 1).reg 1) 1 0 ∧
    ∀ c < 2048, c ≠ 0 → ¬ SpriteCovers (dot 1) ((dot 1).reg 0) ((dot 1).reg 1) 1 c := by
  refine ⟨by unfold SpriteCovers; decide, by unfold SpriteCovers; decide, ?_⟩
  rintro c - hc ⟨row, hr, col, hcol, hb, rfl⟩
  obtain rfl : row = 0 := by omega
  have : ∀ col < 8, spriteBit 0x80 col = true → col = 0 := by decide
  obtain rfl := this col hcol hb
  exact hc rfl
theorem witness_DrawTwiceRestores_lit : (nextOf (exec (.drw 0 1 1) (dot 1))).map (fun t => (t.reg 0, t.reg 1)) =
    some ((dot 1).reg 0, (dot 1).reg 1) ∧ Grid.lit (dot 1).grid 0 = true := by decide +kernel

theorem witness_KeySkips_key : ((boot.setReg 5 15).reg 5).toNat = (15 : Key).val ∧ (0xA : Key) ∈ boot.input.keysDown ∧
    (15 : Key) ∉ boot.input.keysDown := by decide
theorem witness_KeySkips_range : 16 ≤ ((boot.setReg 5 16).reg 5).toNat := by decide
theorem witness_KeyWait_key : boot.input.keyWait = some 7 := by decide
theorem witness_KeyWait_none : (State.reset.withInput ⟨0, 0, [], none, true⟩).input.keyWait = none := by decide

/-- DT = 5, ST = 3, and a Step that samples the time e nanoseconds after last_tick. -/
def timed (e : Nat) (st : Byte) : State := ((State.reset.setDt 5).setSt st).withInput ⟨e, 0, [], none, true⟩

theorem witness_TickByElapsedTime_decrement : 1000000000 ≤ (timed 1000000000 3).clock + (timed 1000000000 3).input.elapsed -
    (timed 1000000000 3).lastTick ∧ (timed 1000000000 3).st.toNat > 0 ∧ (timed 1000000000 0).st.toNat = 0 := by decide
theorem witness_TickByElapsedTime_toneOff :
    250000000 ≤ (timed 250000000 3).clock + (timed 250000000 3).input.elapsed - (timed 250000000 3).lastTick ∧
    (timed 999999999 3).clock + (timed 999999999 3).input.elapsed - (timed 999999999 3).lastTick < 1000000000 := by decide
theorem witness_TickByElapsedTime_early :
    (timed 249999999 3).clock + (timed 249999999 3).input.elapsed - (timed 249999999 3).lastTick < 250000000 := by decide

/-- `boot` with the word w placed at pc. -/
def placed (w : Nat) : State := boot.withFetchWord 16 w

theorem witness_TimersFallByAtMostOne : (placed 0x1ABC).status = .running ∧
    fetchWord (placed 0x1ABC) = .ok 0x1ABC#16 ∧ decodeWord 0x1ABC#16 = .op (.jp 0xABC#12) ∧
    (∃ t, step (placed 0x1ABC) = .next t) ∧ (∀ x, Instr.jp 0xABC#12 ≠ .ldToDt x) ∧
    (∀ x, Instr.jp 0xABC#12 ≠ .ldToSt x) := ⟨rfl, rfl, by decide, ⟨_, rfl⟩, nofun, nofun⟩
theorem witness_StepRunsDecoded_next : (placed 0x1ABC).status = .running ∧ (placed 0x1ABC).pc.toNat + 1 < 4096 ∧
    decodeWord ((placed 0x1ABC).mem.read (placed 0x1ABC).pc.toNat ++ (placed 0x1ABC).mem.read ((placed 0x1ABC).pc.toNat + 1)) =
      .op (.jp 0xABC#12) ∧
    ∃ t, exec (.jp 0xABC#12) ((tick (placed 0x1ABC)).setPc ((placed 0x1ABC).pc + 2)) = .next t :=
  ⟨rfl, by decide, by decide, _, rfl⟩
theorem witness_StepRunsDecoded_fault : (placed 0x00EE).status = .running ∧ (placed 0x00EE).pc.toNat + 1 < 4096 ∧
    decodeWord ((placed 0x00EE).mem.read (placed 0x00EE).pc.toNat ++ (placed 0x00EE).mem.read ((placed 0x00EE).pc.toNat + 1)) =
      .op .ret ∧
    ∃ f, exec .ret ((tick (placed 0x00EE)).setPc ((placed 0x00EE).pc + 2)) = .fault f :=
  ⟨rfl, by decide, by decide, _, rfl⟩
theorem witness_FetchOutsideMemoryFaults : (boot.setPc 4095).status = .running ∧ 4095 ≤ (boot.setPc 4095).pc.toNat ∧
    (boot.setPc 4096).status = .running ∧ 4095 ≤ (boot.setPc 4096).pc.toNat := by decide
theorem witness_InvalidWordFaults : (placed 0xFFFF).status = .running ∧ (placed 0xFFFF).pc.toNat + 1 < 4096 ∧
    0xFFFF#16 = (placed 0xFFFF).mem.read (placed 0xFFFF).pc.toNat ++ (placed 0xFFFF).mem.read ((placed 0xFFFF).pc.toNat + 1) ∧
    decodeWord 0xFFFF#16 = .invalid 0xFFFF#16 := by decide
theorem witness_StoppedCoresDoNothing : (boot.setStatus .halted).status = .halted ∧
    (boot.setStatus (.faulted (.programTooLarge 3585))).status = .faulted (.programTooLarge 3585) := by decide
theorem witness_TransactionReturns_continues : (State.reset.withFetchWord 16 0x1ABC).status = .running ∧
    (nextOf (step ((State.reset.withFetchWord 16 0x1ABC).withInput quiet))).map (·.status) = some .running := by decide
theorem witness_TransactionReturns_stops : (State.reset.withFetchWord 16 0xF20A).status = .running ∧
    (nextOf (step ((State.reset.withFetchWord 16 0xF20A).withInput ⟨0, 0, [], none, true⟩))).map (·.status) =
      some .halted := by decide
theorem witness_TransactionReturns_key : (State.reset.withFetchWord 16 0xF20A).pc.toNat + 1 < 4096 ∧
    decodeWord ((State.reset.withFetchWord 16 0xF20A).mem.read (State.reset.withFetchWord 16 0xF20A).pc.toNat ++
      (State.reset.withFetchWord 16 0xF20A).mem.read ((State.reset.withFetchWord 16 0xF20A).pc.toNat + 1)) =
      .op (.ldKey 2) ∧
    quiet.keyWait = some 7 ∧ (⟨0, 0, [], none, true⟩ : StepInput).keyWait = none := by decide
theorem witness_FaultRecordsFetch_word : (placed 0x00EE).status = .running ∧ ∃ f, step (placed 0x00EE) = .fault f :=
  ⟨rfl, _, rfl⟩
theorem witness_FaultRecordsFetch_fetch : (boot.setPc 4095).status = .running ∧ ∃ f, step (boot.setPc 4095) = .fault f :=
  ⟨rfl, _, rfl⟩
theorem witness_FaultIsTerminal : (State.reset.withFetchWord 16 0x00EE).status = .running ∧
    ∃ f site, step ((State.reset.withFetchWord 16 0x00EE).withInput quiet) = .fault f ∧ f.site = some site :=
  ⟨rfl, _, _, rfl, rfl⟩

theorem witness_OnlyKeyWaitHalts : exec (.ldKey 2) (State.reset.withInput ⟨0, 0, [], none, true⟩) =
    .next ((State.reset.withInput ⟨0, 0, [], none, true⟩).setStatus .halted) ∧
    exec (.jp 0x300) boot = .next (boot.setPc 0x300) := ⟨rfl, rfl⟩
theorem witness_MemoryWriters : exec (.ldF 0) boot = .next (boot.setI 0) ∧
    (∀ x, Instr.ldF 0 ≠ .ldB x) ∧ (∀ x, Instr.ldF 0 ≠ .storeRegs x) := ⟨rfl, nofun, nofun⟩
theorem witness_GridWriters : exec (.jp 0x300) (boot.setGrid 1) = .next ((boot.setGrid 1).setPc 0x300) ∧
    Instr.jp 0x300 ≠ .cls ∧ ∀ x y n, Instr.jp 0x300 ≠ .drw x y n := ⟨rfl, nofun, nofun⟩
theorem witness_StackWriters : exec (.call 0x300) boot = .next ((boot.setStack [0x200]).setPc 0x300) ∧
    exec .ret (boot.setStack [0x300]) = .next ((boot.setStack []).setPc 0x300) ∧
    exec (.jp 0x300) boot = .next (boot.setPc 0x300) := ⟨rfl, rfl, rfl⟩
theorem witness_FlagWriters_writer : writesFlag (.addReg 0 1) = true ∧
    exec (.addReg 0 1) boot = .next ((boot.setReg 0 0).setFlag false) := ⟨rfl, rfl⟩
theorem witness_FlagWriters_other : writesFlag (.ldImm 0xE 5) = false ∧ namesVf (.ldImm 0xE 5) = false ∧
    exec (.ldImm 0xE 5) boot = .next (boot.setReg 0xE 5) := ⟨rfl, by decide, rfl⟩
theorem witness_EventsComeFromDisplay : exec (.ldToSt 3) boot = .next (boot.setSt 0) ∧ Instr.ldToSt 3 ≠ .cls ∧
    ∀ x y n, Instr.ldToSt 3 ≠ .drw x y n := ⟨rfl, nofun, nofun⟩

theorem witness_LoadPlacesProgram_fits : (List.replicate 3584 (0x12 : Byte)).length ≤ 3584 ∧
    3583 < (List.replicate 3584 (0x12 : Byte)).length := by
  rw [List.length_replicate]
  exact ⟨Nat.le_refl _, Nat.lt_succ_self _⟩
theorem witness_LoadPlacesProgram_tooLarge : 3584 < (List.replicate 3585 (0x12 : Byte)).length := by
  rw [List.length_replicate]
  exact Nat.lt_succ_self _
theorem witness_CanonicalMemoryIsUnique : Memory.wf [(0x300, 0x12)] = true ∧
    ∀ a, Memory.read [(0x300, 0x12)] a = Memory.read [(0x300, 0x12)] a := ⟨by decide, fun _ => rfl⟩

/-- A state in the middle of a run meets the invariant, and its Step answers a next state. -/
theorem witness_StepKeepsInvariant : Inv ((placed 0x2300).setStack [0x202]) ∧
    (nextOf (step ((placed 0x2300).setStack [0x202]))).isSome = true :=
  ⟨⟨by decide, by decide, fun a ha => List.mem_singleton.1 ha ▸ by decide, by decide, by decide⟩, by decide +kernel⟩
/-- The state after Reset with the program 1ABC at time 7, which is reached, and its first Step answers a next
state, which is reached then. -/
def started : State := State.reset.setMem [(0x200, 0x1A), (0x201, 0xBC)] |> fun s => { s with lastTick := 7, clock := 7 }

theorem witness_ReachableStatesMeetInvariant : Reachable started ∧
    (nextOf (step (started.withInput quiet))).map (·.pc) = some 0xABC :=
  ⟨.reset [0x1A, 0xBC] 7 started (by rfl), by decide +kernel⟩

end Sys2Proof.Tests
end

/-!
PROOFS of the family 10_state.md. What an instruction that completes has done is said once, as one of the shapes
of `Effect` (`exec_effect`); the rules on who writes what, and the step lemma of the invariant, are case splits
over these shapes.
-/
namespace Sys2Proof.Machine

/-! ## What an instruction can do -/

/-- The shapes of a next state: what an instruction that completes can have made of the state. Each shape says
which operation wrote the state, and the facts the write was made under. -/
inductive Effect (s : State) : Instr → State → Prop
  /-- SYS, jumps and skips: pc stays, passes one word or takes an address up to 0xFFF + 0xFF. -/
  | jump {i : Instr} {a : Pc} (flag : writesFlag i = false)
      (bound : a = s.pc ∨ a = nextPc s.pc ∨ a.toNat ≤ 4350) : Effect s i (s.setPc a)
  /-- One register written and no flag. -/
  | load {i : Instr} {x : RegId} (b : RegVal) (flag : writesFlag i = false) (dest : namesVf i = false → x ≠ vf) :
      Effect s i (s.setReg x b)
  /-- A result in Vx, then the flag. -/
  | arith {i : Instr} (x : RegId) (b : RegVal) (c : Bool) (flag : writesFlag i = true) :
      Effect s i ((s.setReg x b).setFlag c)
  /-- A result in Vy and in Vx, then the flag. -/
  | shift {i : Instr} (x y : RegId) (b : RegVal) (c : Bool) (flag : writesFlag i = true) :
      Effect s i (((s.setReg y b).setReg x b).setFlag c)
  /-- I written and no flag. -/
  | index {i : Instr} (a : BitVec Config.iBits) (flag : writesFlag i = false) : Effect s i (s.setI a)
  /-- ADD I: the sum in I, then the flag. -/
  | indexCarry (x : RegId) (a : BitVec Config.iBits) (c : Bool) : Effect s (.addI x) ((s.setI a).setFlag c)
  /-- The delay timer. -/
  | delay (x : RegId) (b : BitVec Config.timerBits) : Effect s (.ldToDt x) (s.setDt b)
  /-- The sound timer. -/
  | sound (x : RegId) (b : BitVec Config.timerBits) : Effect s (.ldToSt x) (s.setSt b)
  /-- The dark grid, and its event. -/
  | clear : Effect s .cls ((s.setGrid 0).emit .renderClear)
  /-- A composited grid, the collision in the flag, and the event. -/
  | draw (x y : RegId) (n : Height) (k : Canvas) :
      Effect s (.drw x y n) (((s.setGrid k.grid).setFlag k.hit).emit (.renderDraw k.grid))
  /-- The top entry taken off the call stack into pc. -/
  | ret {a : RetAddr} {rest : List RetAddr} (top : s.stack = rest ++ [a]) :
      Effect s .ret ((s.setStack rest).setPc a)
  /-- pc put on a call stack that has room. -/
  | call (nnn : Addr12) (room : s.stack.length < Config.stackDepth) :
      Effect s (.call nnn) ((s.setStack (s.stack ++ [s.pc])).setPc (zextAddr _ nnn))
  /-- The key-wait answered no key. -/
  | halt (x : RegId) (noKey : s.input.keyWait = none) : Effect s (.ldKey x) (s.setStatus .halted)
  /-- LD B: bytes stored inside memory. -/
  | digits (x : RegId) {a : Nat} {bs : List Byte} (fits : bs = [] ∨ a + bs.length ≤ Config.memSize) :
      Effect s (.ldB x) (s.setMem (s.mem.writeAll a bs))
  /-- LD [I]: bytes stored inside memory, and I advanced. -/
  | storeRange (x : RegId) {a : Nat} {bs : List Byte} (fits : bs = [] ∨ a + bs.length ≤ Config.memSize)
      (b : BitVec Config.iBits) : Effect s (.storeRegs x) ((s.setMem (s.mem.writeAll a bs)).setI b)
  /-- LD Vx,[I]: V0..Vx replaced, and I advanced. -/
  | loadRange (x : RegId) {bs : List RegVal} (len : bs.length = countTo x) (b : BitVec Config.iBits) :
      Effect s (.loadRegs x) ((s.setRegs bs).setI b)

/-- A settled computation that answers a next state: its first part succeeds, and the rest gives that state. -/
theorem settle_bind_next {α : Type} {e : Except Fault α} {g : α → Except Fault State} {t : State}
    (h : settle (e >>= g) = .next t) : ∃ a, e = .ok a ∧ g a = .ok t :=
  bind_ok.1 (settle_next.1 h)

/-- A skip leaves pc or passes one word. -/
theorem Effect.skip {s : State} {i : Instr} (b : Bool) (flag : writesFlag i = false) : Effect s i (s.skipIf b) :=
  .jump flag (by cases b <;> simp)

/-- JP V0 reaches at most 0xFFF + 0xFF, so its sum does not wrap (40_control_flow.md R118). -/
theorem toNat_jumpV0_le (nnn : Addr12) (v : RegVal) :
    (BitVec.ofNat Config.pcBits (nnn.toNat + v.toNat)).toNat ≤ 4350 := by
  have := nnn.isLt
  have := reg_lt v
  rw [BitVec.toNat_ofNat, two_pow_pcBits, Nat.mod_eq_of_lt] <;> omega

/-- Everything an instruction that answers a next state can have done. -/
theorem exec_effect {i : Instr} {s t : State} (h : exec i s = .next t) : Effect s i t := by
  cases i
  case sys => injection h with h; exact h ▸ .jump rfl (.inl rfl)
  case jp nnn =>
    injection h with h
    have := nnn.isLt
    exact h ▸ .jump rfl (.inr (.inr (by rw [toNat_zextAddr]; omega)))
  case jpV0 nnn => injection h with h; exact h ▸ .jump rfl (.inr (.inr (toNat_jumpV0_le nnn _)))
  case seImm | sneImm | seReg | sneReg => injection h with h; exact h ▸ .skip _ rfl
  case skp | sknp =>
    obtain ⟨_, _, ht⟩ := settle_bind_next h
    injection ht with ht
    exact ht ▸ .skip _ rfl
  case ldImm | addImm | ldReg | orReg | andReg | xorReg | rnd | ldFromDt =>
    injection h with h
    exact h ▸ .load _ rfl ne_of_beq_false
  case ldKey x =>
    injection h with h
    cases hk : s.input.keyWait with
    | some k => rw [hk] at h; exact h ▸ .load _ rfl ne_of_beq_false
    | none => rw [hk] at h; exact h ▸ .halt x hk
  case addReg | subReg | subnReg => injection h with h; exact h ▸ .arith _ _ _ rfl
  case shr | shl => injection h with h; exact h ▸ .shift _ _ _ _ rfl
  case ldI | ldF => injection h with h; exact h ▸ .index _ rfl
  case addI => injection h with h; exact h ▸ .indexCarry _ _ _
  case ldToDt => injection h with h; exact h ▸ .delay _ _
  case ldToSt => injection h with h; exact h ▸ .sound _ _
  case cls => injection h with h; exact h ▸ .clear
  case drw =>
    obtain ⟨k, _, hp⟩ := settle_bind_next h
    obtain ⟨_, rfl⟩ := present_ok hp
    exact .draw _ _ _ k
  case ret =>
    obtain ⟨⟨a, rest⟩, hpop, ht⟩ := settle_bind_next h
    injection ht with ht
    rw [ofEntry_eq] at ht
    exact ht ▸ .ret (pop_ok hpop)
  case call nnn =>
    obtain ⟨l, hpush, ht⟩ := settle_bind_next h
    injection ht with ht
    obtain ⟨room, rfl⟩ := push_ok hpush
    rw [toEntry_eq] at ht
    exact ht ▸ .call nnn room
  case ldB =>
    obtain ⟨m, hm, ht⟩ := settle_bind_next h
    injection ht with ht
    obtain ⟨rfl, fits⟩ := storeBytes_ok hm
    exact ht ▸ .digits _ fits
  case storeRegs =>
    obtain ⟨m, hm, ht⟩ := settle_bind_next h
    injection ht with ht
    obtain ⟨rfl, fits⟩ := storeBytes_ok hm
    exact ht ▸ .storeRange _ fits _
  case loadRegs =>
    obtain ⟨bs, hbs, ht⟩ := settle_bind_next h
    injection ht with ht
    obtain ⟨rfl, _⟩ := loadBytes_ok hbs
    exact ht ▸ .loadRange _ (by simp) _

/-! ## What an effect leaves in VF (10_state.md R35) -/

/-- VF is 0 or 1 once the flag is written. -/
theorem State.reg_vf_setFlag (s : State) (c : Bool) : (s.setFlag c).reg vf = 0 ∨ (s.setFlag c).reg vf = 1 := by
  cases c <;> simp [flagByte]

/-- A flag writer writes the flag last, so VF holds it (log 8). -/
theorem Effect.vf_flag {i : Instr} {s t : State} (e : Effect s i t) (hw : writesFlag i = true) :
    t.reg vf = 0 ∨ t.reg vf = 1 := by
  cases e with
  | arith _ _ c | shift _ _ _ c | indexCarry _ _ c => exact State.reg_vf_setFlag _ c
  | draw _ _ _ k => exact State.reg_vf_setFlag _ k.hit
  | jump flag | load _ flag | index _ flag => exact absurd (flag.symm.trans hw) (by decide)
  | _ => injection hw

/-- Of the others only a write of VF as named destination, or of a range that ends at VF, reaches it. -/
theorem Effect.vf_unchanged {i : Instr} {s t : State} (e : Effect s i t) (hw : writesFlag i = false)
    (hv : namesVf i = false) : t.reg vf = s.reg vf := by
  cases e with
  | arith _ _ _ flag | shift _ _ _ _ flag => exact absurd (flag.symm.trans hw) (by decide)
  | indexCarry | draw => injection hw
  | load _ _ dest => rw [State.reg_setReg, if_neg (dest hv).symm]
  | @loadRange x bs len _ =>
    have hx : x.val ≠ 15 := fun e => ne_of_beq_false hv (Fin.ext e)
    have hlen : bs.length ≤ vf.val := by
      rw [len, countTo]
      show x.val + 1 ≤ 15
      have : x.val < 16 := x.isLt
      omega
    rw [State.reg_setI, State.reg_setRegs, List.getD_eq_default _ _ hlen]
  | _ => simp

/-! ## The invariant -/

/-- The tick leaves last_tick at or behind the time sample it took (00_scope.md R16). -/
theorem Inv.tick {s : State} (h : Inv s) : Inv (tick s) where
  memWf := h.memWf
  depth := h.depth
  returns := h.returns
  pcBound := h.pcBound
  ticked := by
    have := h.ticked
    rw [tick_lastTick, tick_clock, State.now]
    split <;> omega

theorem Inv.setPc {s : State} (h : Inv s) {a : Pc} (ha : a.toNat ≤ 4350) : Inv (s.setPc a) :=
  { h with pcBound := ha }

/-- The invariant reads five fields: a state that agrees on them meets it as well. -/
theorem Inv.of_fields {s t : State} (h : Inv s) (mem : t.mem = s.mem) (stack : t.stack = s.stack)
    (pc : t.pc = s.pc) (lastTick : t.lastTick = s.lastTick) (clock : t.clock = s.clock) : Inv t where
  memWf := mem ▸ h.memWf
  depth := stack ▸ h.depth
  returns := stack ▸ h.returns
  pcBound := pc ▸ h.pcBound
  ticked := lastTick ▸ clock ▸ h.ticked

/-- Bytes stored inside memory keep the canonical form. -/
theorem Inv.setMem_writeAll {s : State} (h : Inv s) {a : Nat} {bs : List Byte}
    (fits : bs = [] ∨ a + bs.length ≤ Config.memSize) : Inv (s.setMem (s.mem.writeAll a bs)) where
  __ := h
  memWf := by
    rcases fits with rfl | fits
    · exact h.memWf
    · exact Memory.wf_writeAll h.memWf fits

/-- An instruction that completes keeps the invariant where pc holds what a fetch inside memory leaves. -/
theorem Effect.keeps_inv {i : Instr} {s t : State} (e : Effect s i t) (h : Inv s)
    (hpc : s.pc.toNat ≤ 4096) : Inv t := by
  cases e with
  | jump _ bound =>
    refine h.setPc ?_
    rcases bound with rfl | rfl | bound
    · exact h.pcBound
    · rw [toNat_nextPc]; omega
    · exact bound
  | @ret a rest top =>
    have hdepth := h.depth
    rw [top, List.length_append] at hdepth
    have htop : a.toNat ≤ 4096 := h.returns a (by simp [top])
    exact { h with
      depth := Nat.le_of_add_right_le hdepth
      returns := fun b hb => h.returns b (by simp [top, show b ∈ rest from hb])
      pcBound := Nat.le_trans htop (by decide) }
  | call nnn room =>
    have := nnn.isLt
    exact { h with
      depth := by simpa using room
      returns := fun b hb => by
        rcases List.mem_append.1 hb with hb | hb
        · exact h.returns b hb
        · rwa [List.mem_singleton.1 hb]
      pcBound := by rw [State.setPc_pc, toNat_zextAddr]; omega }
  | digits _ fits => exact h.setMem_writeAll fits
  | storeRange _ fits => exact { h.setMem_writeAll fits with }
  | load | arith | shift | index | indexCarry | delay | sound | clear | draw | halt | loadRange =>
    apply h.of_fields <;> simp

/-- Settles O58: a Running core's fetch lies inside memory, so pc is at most 4096 when the instruction executes, and
from there every effect keeps the invariant. -/
theorem stepKeepsInvariant : Obligations.StepKeepsInvariant := by
  intro s t hs h
  obtain ⟨_, rfl⟩ | ⟨_, w, i, u, hw, _, hu, rfl⟩ := step_next h
  · exact hs
  · have hfetch : s.pc.toNat + 1 < 4096 := (fetchWord_ok hw).1
    have hpc : (nextPc s.pc).toNat ≤ 4096 := by rw [toNat_nextPc]; omega
    have hinv : Inv u := (exec_effect hu).keeps_inv (hs.tick.setPc (by omega)) hpc
    exact { hinv with }

/-- Settles O57, field by field: memory lists nothing and the stack is empty. -/
theorem invariantAtReset : Obligations.InvariantAtReset where
  memWf := rfl
  depth := Nat.zero_le _
  returns := fun _ ha => absurd ha List.not_mem_nil
  pcBound := by decide
  ticked := Nat.le_refl _

/-- A successful Reset of any program at any time meets the invariant: the image ends inside memory. -/
theorem inv_of_load {prog : List Byte} {now : Nat} {s : State} (h : load prog now = .next s) : Inv s := by
  rw [load] at h
  split at h
  · next hlen =>
    injection h with h
    have hfits : Config.progBase + prog.length ≤ Config.memSize := Nat.add_le_add_left hlen 512
    have hmem := invariantAtReset.setMem_writeAll (.inr hfits)
    exact h ▸ { hmem with ticked := Nat.le_refl now }
  · injection h

/-- Settles O59, by induction on the run: Reset establishes the invariant and a Step keeps it (O58) whatever input
is laid down. -/
theorem reachableStatesMeetInvariant : Obligations.ReachableStatesMeetInvariant := by
  intro s h
  induction h with
  | reset prog now s hload => exact inv_of_load hload
  | step s t a _ hstep hs => exact stepKeepsInvariant (s.withInput a) t { hs with } hstep

/-! ## Which instruction writes which part of the state (10_state.md R28, R32, R33, R35) -/

/-- Settles O47: of all effects only the halt writes the status. -/
theorem onlyKeyWaitHalts : Obligations.OnlyKeyWaitHalts := by
  intro i s t h
  cases exec_effect h with
  | halt x noKey => exact .inr ⟨⟨x, rfl⟩, noKey, rfl⟩
  | _ => exact .inl (by simp)

/-- Settles O49: of all effects only CLS's and DRW's write the grid. -/
theorem gridWriters : Obligations.GridWriters := by
  intro i s t h hcls hdrw
  cases exec_effect h with
  | clear => exact absurd rfl hcls
  | draw x y n => exact absurd rfl (hdrw x y n)
  | _ => simp

/-- Settles O50: of all effects only CALL's and RET's write the stack. -/
theorem stackWriters : Obligations.StackWriters := by
  intro i s t h
  cases exec_effect h with
  | ret top => exact .inr (.inr ⟨rfl, top⟩)
  | call nnn => exact .inr (.inl ⟨⟨nnn, rfl⟩, rfl⟩)
  | _ => exact .inl (by simp)

/-- Settles O51 from the two facts about VF after an effect. -/
theorem flagWriters : Obligations.FlagWriters := fun _ _ _ h =>
  ⟨(exec_effect h).vf_flag, (exec_effect h).vf_unchanged⟩

end Sys2Proof.Machine

/-!
PROOFS of the family 20_memory.md. A canonical memory is recovered from its reads, least listed address first; what a
completed LD [I] has done is said once (`exec_storeRegs_next`) and read back byte by byte (`read_storedRegs`).
-/
namespace Sys2Proof.Machine

/-! ## The canonical form is determined by what is read (20_memory.md R50) -/

/-- The first cell of a canonical memory differs from the unloaded memory, and the rest is canonical. -/
theorem Memory.wf_cons {c : Host.Cell} {m : Memory} (h : Memory.wf (c :: m) = true) :
    c.2 ≠ unloadedByte c.1 ∧ m.wf = true := by
  obtain ⟨hcells, hrising⟩ := Bool.and_eq_true_iff.1 h
  obtain ⟨⟨_, hne⟩, hcells⟩ := (Memory.cellsOk_cons c m).1 hcells
  exact ⟨hne, Bool.and_eq_true_iff.2 ⟨hcells, Memory.rising_tail hrising⟩⟩

/-- The first listed address reads as its own byte. -/
@[simp] theorem Memory.read_head (c : Host.Cell) (m : Memory) : Memory.read (c :: m) c.1 = c.2 := if_pos rfl

/-- At the first listed address, memory without its first cell reads as unloaded. -/
theorem Memory.read_tail_head {c : Host.Cell} {m : Memory} (h : Memory.rising (c :: m) = true) :
    m.read c.1 = unloadedByte c.1 := by
  cases m with
  | nil => rfl
  | cons d m =>
    obtain ⟨hlt, hrising⟩ := Bool.and_eq_true_iff.1 h
    exact Memory.read_below hrising (of_decide_eq_true hlt)

/-- A canonical memory that reads as another one lists no address below the other's first: there the other reads as
unloaded. -/
theorem Memory.head_le_of_read_eq {c d : Host.Cell} {m m' : Memory} (h : Memory.wf (c :: m) = true)
    (h' : Memory.wf (d :: m') = true) (hread : ∀ a, Memory.read (c :: m) a = Memory.read (d :: m') a) :
    d.1 ≤ c.1 := by
  by_contra hlt
  apply (Memory.wf_cons h).1
  rw [← Memory.read_head c m, hread, Memory.read_below (Memory.wf_rising h') (Nat.lt_of_not_le hlt)]

/-- Memories with the same first cell that read alike also read alike without it. -/
theorem Memory.read_tail_eq {c : Host.Cell} {m m' : Memory} (h : Memory.rising (c :: m) = true)
    (h' : Memory.rising (c :: m') = true) (hread : ∀ a, Memory.read (c :: m) a = Memory.read (c :: m') a) (a : Nat) :
    m.read a = m'.read a := by
  by_cases ha : a = c.1
  · rw [ha, Memory.read_tail_head h, Memory.read_tail_head h']
  · have := hread a
    rwa [Memory.read, Memory.read, if_neg ha, if_neg ha] at this

/-- Settles O56, by induction on both lists: the first cells lie at the same, least address where memory differs from
the unloaded one, and hold the byte read there. -/
theorem canonicalMemoryIsUnique : Obligations.CanonicalMemoryIsUnique := by
  intro m
  induction m with
  | nil =>
    intro m' _ h' hread
    cases m' with
    | nil => rfl
    | cons d m' => exact absurd ((Memory.read_head d m').symm.trans (hread d.1).symm) (Memory.wf_cons h').1
  | cons c m ih =>
    intro m' h h' hread
    cases m' with
    | nil => exact absurd ((Memory.read_head c m).symm.trans (hread c.1)) (Memory.wf_cons h).1
    | cons d m' =>
      have haddr : c.1 = d.1 := Nat.le_antisymm (Memory.head_le_of_read_eq h' h fun a => (hread a).symm)
        (Memory.head_le_of_read_eq h h' hread)
      have hbyte : c.2 = d.2 := by rw [← Memory.read_head c m, hread, haddr, Memory.read_head]
      obtain rfl : c = d := Prod.ext haddr hbyte
      have htail := Memory.read_tail_eq (Memory.wf_rising h) (Memory.wf_rising h') hread
      rw [ih m' (Memory.wf_cons h).2 (Memory.wf_cons h').2 htail]

/-! ## What LD [I] stores (20_memory.md R59, R67) -/

/-- Everything an LD [I] that completes has done, and that its last byte lies in memory. -/
theorem exec_storeRegs_next {x : RegId} {s t : State} (h : exec (.storeRegs x) s = .next t) :
    t = (s.setMem (s.mem.writeAll (s.effAddr 0) (s.regsTo x))).setI (s.advancedI x) ∧
      s.effAddr x.val < Config.memSize := by
  obtain ⟨m, hm, ht⟩ := settle_bind_next h
  injection ht with ht
  obtain ⟨rfl, fits⟩ := storeBytes_ok hm
  have hlen : (s.regsTo x).length = x.val + 1 := s.regsTo_length x
  refine ⟨ht.symm, ?_⟩
  rcases fits with hnil | fits
  · rw [hnil] at hlen; injection hlen
  · rw [hlen] at fits; exact fits

/-- After V0..Vx are stored, the byte at I + r is Vr. -/
theorem read_storedRegs {x r : RegId} {s : State} (hmem : s.mem.rising = true) (h : r ≤ x) :
    (s.mem.writeAll (s.effAddr 0) (s.regsTo x)).read (s.effAddr r.val) = s.reg r := by
  have hbase : s.effAddr 0 ≤ s.effAddr r.val := Nat.add_le_add_left (Nat.zero_le _) _
  have hoffset : s.effAddr r.val - s.effAddr 0 = r.val := Nat.add_sub_cancel_left ..
  rw [Memory.read_writeAll hmem, if_pos hbase, hoffset, State.regsTo_getD s h]

/-- Settles O31: both bytes lie inside what the store wrote, so the fetch stays in memory and reads them back. -/
theorem fetchSeesStore : Obligations.FetchSeesStore := by
  intro x r q s t u hwf h hrq hqx hu hpc
  obtain ⟨rfl, hlast⟩ := exec_storeRegs_next h
  have hmem : s.mem.rising = true := Memory.wf_rising hwf
  have hrx : r ≤ x := Nat.le_trans (hrq ▸ Nat.le_succ r.val) hqx
  have hpc' : u.pc.toNat + 1 = s.effAddr q.val := by rw [hpc, ← hrq]; rfl
  have hfits : u.pc.toNat + 1 < Config.memSize := hpc' ▸ Nat.lt_of_le_of_lt (Nat.add_le_add_left hqx _) hlast
  rw [fetchWord_fits hfits, hpc', hpc, hu, hu, State.setI_mem, State.setMem_mem, read_storedRegs hmem hrx,
    read_storedRegs hmem hqx, wordOfBytes]

/-! ## Which instruction writes memory (20_memory.md R55, R59) -/

/-- Settles O48: of all effects only LD B's and LD [I]'s write memory. -/
theorem memoryWriters : Obligations.MemoryWriters := by
  intro i s t h hldB hstore a
  cases exec_effect h with
  | digits x => exact absurd rfl (hldB x)
  | storeRange x => exact absurd rfl (hstore x)
  | _ => simp

end Sys2Proof.Machine

/-!
PROOFS of the family 30_encoding.md. The decoder is split once, family by family (`decodeWord_faithful`), and the
encoder once, instruction by instruction (`roundTrip`, `not_invalidForm_encode`); the statements on single families
are read off these. Then the Step: which word it fetches or with which fault, and what the transaction returns.
-/
namespace Sys2Proof

/-! ## A word from its fields, where some of them are known -/

theorem wordNnn_of_fieldF {w : Word} {f : BitVec 4} (hf : fieldF w = f) : wordNnn f (fieldNnn w) = w :=
  hf ▸ wordNnn_fields w

theorem wordNnn_of_fieldNnn {w : Word} {f : BitVec 4} {nnn : Addr12} (hf : fieldF w = f) (hnnn : fieldNnn w = nnn) :
    wordNnn f nnn = w :=
  hnnn ▸ wordNnn_of_fieldF hf

theorem wordXkk_of_fieldF {w : Word} {f : BitVec 4} (hf : fieldF w = f) :
    wordXkk f (fieldX w) (fieldKk w) = w :=
  hf ▸ wordXkk_fields w

theorem wordXkk_of_fieldKk {w : Word} {f : BitVec 4} {kk : Byte} (hf : fieldF w = f) (hkk : fieldKk w = kk) :
    wordXkk f (fieldX w) kk = w :=
  hkk ▸ wordXkk_of_fieldF hf

theorem wordXyn_of_fieldN {w : Word} {f n : BitVec 4} (hf : fieldF w = f) (hn : fieldN w = n) :
    wordXyn f (fieldX w) (fieldY w) n = w :=
  hf ▸ hn ▸ wordXyn_fields w

/-! ## What the decoder answers (30_encoding.md R83 to R91) -/

/-- The five forms of R91, over the fields of R81. -/
def InvalidForm (w : Word) : Prop :=
  (fieldF w = 0x5#4 ∨ fieldF w = 0x9#4) ∧ fieldN w ≠ 0x0#4 ∨
    fieldF w = 0x8#4 ∧ fieldN w ∈ [0x8#4, 0x9#4, 0xA#4, 0xB#4, 0xC#4, 0xD#4, 0xF#4] ∨
    fieldF w = 0xE#4 ∧ fieldKk w ∉ [0x9E#8, 0xA1#8] ∨
    fieldF w = 0xF#4 ∧ fieldKk w ∉ [0x07#8, 0x0A#8, 0x15#8, 0x18#8, 0x1E#8, 0x29#8, 0x33#8, 0x55#8, 0x65#8]

/-- What makes an answer of the decoder right for w: an operation is a well-formed one whose word is w, and the
invalid variant carries w, which has one of the forms of R91. -/
def Decoded.Faithful (w : Word) : Decoded → Prop
  | .op i => encode i = w ∧ i.wellFormed = true
  | .invalid w' => w' = w ∧ InvalidForm w

theorem decode0_faithful {w : Word} (hf : fieldF w = 0x0#4) : (decode0 w).Faithful w := by
  rw [decode0]
  split
  · next hcls => exact ⟨wordNnn_of_fieldNnn hf hcls, rfl⟩
  · next hcls =>
    split
    · next hret => exact ⟨wordNnn_of_fieldNnn hf hret, rfl⟩
    · next hret => exact ⟨wordNnn_of_fieldF hf, by simp [Instr.wellFormed, hcls, hret]⟩

/-- The n of family 8 that name no operation are those outside the decoder's nine (R87). -/
theorem mem_invalidN (n : BitVec 4) (h : n ∉ [0x0#4, 0x1#4, 0x2#4, 0x3#4, 0x4#4, 0x5#4, 0x6#4, 0x7#4, 0xE#4]) :
    n ∈ [0x8#4, 0x9#4, 0xA#4, 0xB#4, 0xC#4, 0xD#4, 0xF#4] := by
  revert n
  decide

theorem decode8_faithful {w : Word} (hf : fieldF w = 0x8#4) : (decode8 w).Faithful w := by
  rw [decode8]
  split
  case h_10 => exact ⟨rfl, .inr (.inl ⟨hf, mem_invalidN _ (by simp_all)⟩)⟩
  all_goals next hn => exact ⟨wordXyn_of_fieldN hf hn, rfl⟩

theorem decodeE_faithful {w : Word} (hf : fieldF w = 0xE#4) : (decodeE w).Faithful w := by
  rw [decodeE]
  split
  case h_3 => exact ⟨rfl, .inr (.inr (.inl ⟨hf, by simp_all⟩))⟩
  all_goals next hkk => exact ⟨wordXkk_of_fieldKk hf hkk, rfl⟩

theorem decodeF_faithful {w : Word} (hf : fieldF w = 0xF#4) : (decodeF w).Faithful w := by
  rw [decodeF]
  split
  case h_10 => exact ⟨rfl, .inr (.inr (.inr ⟨hf, by simp_all⟩))⟩
  all_goals next hkk => exact ⟨wordXkk_of_fieldKk hf hkk, rfl⟩

/-- The sixteen families are all there are. -/
theorem mem_families (f : BitVec 4) : f ∈ [0x0#4, 0x1#4, 0x2#4, 0x3#4, 0x4#4, 0x5#4, 0x6#4, 0x7#4, 0x8#4, 0x9#4,
    0xA#4, 0xB#4, 0xC#4, 0xD#4, 0xE#4, 0xF#4] := by
  revert f
  decide

/-- Whatever the decoder answers is right for the word. The cases h_1 to h_16 of the opcode map are the families 0
to F. -/
theorem decodeWord_faithful (w : Word) : (decodeWord w).Faithful w := by
  rw [decodeWord]
  split
  case h_1 hf => exact decode0_faithful hf
  case h_9 hf => exact decode8_faithful hf
  case h_15 hf => exact decodeE_faithful hf
  case h_16 hf => exact decodeF_faithful hf
  case h_6 hf | h_10 hf =>
    split
    · next hn => exact ⟨wordXyn_of_fieldN hf hn, rfl⟩
    · next hn => exact ⟨rfl, .inl ⟨by simp [hf], hn⟩⟩
  case h_2 hf | h_3 hf | h_11 hf | h_12 hf => exact ⟨wordNnn_of_fieldF hf, rfl⟩
  case h_4 hf | h_5 hf | h_7 hf | h_8 hf | h_13 hf => exact ⟨wordXkk_of_fieldF hf, rfl⟩
  case h_14 hf => exact ⟨wordXyn_of_fieldN hf (nibOfHeight_heightOf _).symm, rfl⟩
  case h_17 => exact absurd (mem_families (fieldF w)) (by simp_all)

theorem faithful_of_decodeWord {w : Word} {d : Decoded} (h : decodeWord w = d) : d.Faithful w :=
  h ▸ decodeWord_faithful w

/-- Settles O8: the operation is faithful to the word. -/
theorem encodeOfDecode : Obligations.EncodeOfDecode := fun _ _ h => faithful_of_decodeWord h

/-! ## What the encoder gives (30_encoding.md R84 to R89) -/

theorem roundTrip : ∀ i : Instr, Laws.RoundTrip.Statement i
  | .cls => Laws.RoundTrip.cls
  | .ret => Laws.RoundTrip.ret
  | .sys nnn => Laws.RoundTrip.sys nnn
  | .jp nnn => Laws.RoundTrip.jp nnn
  | .call nnn => Laws.RoundTrip.call nnn
  | .seImm x kk => Laws.RoundTrip.seImm x kk
  | .sneImm x kk => Laws.RoundTrip.sneImm x kk
  | .seReg x y => Laws.RoundTrip.seReg x y
  | .ldImm x kk => Laws.RoundTrip.ldImm x kk
  | .addImm x kk => Laws.RoundTrip.addImm x kk
  | .ldReg x y => Laws.RoundTrip.ldReg x y
  | .orReg x y => Laws.RoundTrip.orReg x y
  | .andReg x y => Laws.RoundTrip.andReg x y
  | .xorReg x y => Laws.RoundTrip.xorReg x y
  | .addReg x y => Laws.RoundTrip.addReg x y
  | .subReg x y => Laws.RoundTrip.subReg x y
  | .shr x y => Laws.RoundTrip.shr x y
  | .subnReg x y => Laws.RoundTrip.subnReg x y
  | .shl x y => Laws.RoundTrip.shl x y
  | .sneReg x y => Laws.RoundTrip.sneReg x y
  | .ldI nnn => Laws.RoundTrip.ldI nnn
  | .jpV0 nnn => Laws.RoundTrip.jpV0 nnn
  | .rnd x kk => Laws.RoundTrip.rnd x kk
  | .drw x y n => Laws.RoundTrip.drw x y n
  | .skp x => Laws.RoundTrip.skp x
  | .sknp x => Laws.RoundTrip.sknp x
  | .ldFromDt x => Laws.RoundTrip.ldFromDt x
  | .ldKey x => Laws.RoundTrip.ldKey x
  | .ldToDt x => Laws.RoundTrip.ldToDt x
  | .ldToSt x => Laws.RoundTrip.ldToSt x
  | .addI x => Laws.RoundTrip.addI x
  | .ldF x => Laws.RoundTrip.ldF x
  | .ldB x => Laws.RoundTrip.ldB x
  | .storeRegs x => Laws.RoundTrip.storeRegs x
  | .loadRegs x => Laws.RoundTrip.loadRegs x

/-- The two bytes of a word before any others decode to what the word does. -/
theorem decode_bytes {w : Word} {i : Instr} (h : decodeWord w = .op i) (rest : List Byte) :
    decode (hiByte w :: loByte w :: rest) = .ok (i, rest) := by
  rw [decode_cons, wordOfBytes_hi_lo, h]

/-- Settles O7: the word by one lemma for each instruction, the bytes from the word. -/
theorem decodeOfEncode : Obligations.DecodeOfEncode := fun i hi =>
  ⟨roundTrip i hi, decode_bytes (roundTrip i hi)⟩

/-- No instruction's word has one of the forms of R91. -/
theorem not_invalidForm_encode (i : Instr) : ¬ InvalidForm (encode i) := by
  cases i
  case cls | ret => simp only [InvalidForm]; decide
  all_goals simp [InvalidForm, encode]

theorem decodeWord_invalid {w : Word} (h : InvalidForm w) : decodeWord w = .invalid w := by
  cases hd : decodeWord w with
  | op i =>
    obtain ⟨rfl, _⟩ := faithful_of_decodeWord hd
    exact absurd h (not_invalidForm_encode i)
  | invalid w' =>
    obtain ⟨rfl, _⟩ := faithful_of_decodeWord hd
    rfl

/-- Settles O6: an invalid answer is faithful to the word, and no operation has a word of these forms. -/
theorem invalidWordsAreExactly : Obligations.InvalidWordsAreExactly := fun _ _ =>
  ⟨faithful_of_decodeWord, fun ⟨hw, h⟩ => (decodeWord_invalid h).trans (congrArg _ hw.symm)⟩

/-! ## The families (30_encoding.md R84 to R89) -/

theorem decodeWord_of_encode {w : Word} {i : Instr} (hw : w = encode i) (hi : i.wellFormed = true) :
    decodeWord w = .op i :=
  hw ▸ roundTrip i hi

/-- DRW's height is the field n. -/
theorem cat_wordDrw (x y n : BitVec 4) :
    (0xD#4 ++ x ++ y ++ n : BitVec (4 + 4 + 4 + 4)) = encode (.drw (regOf x) (regOf y) (heightOf n)) := by
  rw [cat_wordXyn, encode, nibOfHeight_heightOf]
  rfl

/-- Settles O1: every nnn but the two fixed ones makes SYS well formed. -/
theorem decodesFamilyZero : Obligations.DecodesFamilyZero :=
  ⟨roundTrip .cls rfl, roundTrip .ret rfl, fun nnn hcls hret =>
    roundTrip (.sys nnn) (by simp [Instr.wellFormed, clsNnn, retNnn, hcls, hret])⟩

/-- Settles O2: each word is the encoding of the operation named. -/
theorem decodesPlainFamilies : Obligations.DecodesPlainFamilies := fun nnn x y n _ =>
  ⟨roundTrip (.jp nnn) rfl, roundTrip (.call nnn) rfl,
    decodeWord_of_encode (cat_wordXkk ..) rfl, decodeWord_of_encode (cat_wordXkk ..) rfl,
    decodeWord_of_encode (cat_wordXkk ..) rfl, decodeWord_of_encode (cat_wordXkk ..) rfl,
    roundTrip (.ldI nnn) rfl, roundTrip (.jpV0 nnn) rfl, decodeWord_of_encode (cat_wordXkk ..) rfl,
    decodeWord_of_encode (cat_wordDrw x y n) rfl⟩

/-- Settles O3: n = 0 gives an encoding, any other n one of the forms of R91. -/
theorem decodesFamiliesFiveAndNine : Obligations.DecodesFamiliesFiveAndNine := by
  refine fun x y n => ⟨?_, ?_, fun hn => ⟨decodeWord_invalid (.inl ?_), decodeWord_invalid (.inl ?_)⟩⟩
  case refine_1 | refine_2 => exact decodeWord_of_encode (cat_wordXyn ..) rfl
  all_goals simp [cat_wordXyn, hn]

/-- Settles O4: nine n give encodings, the listed others a form of R91. -/
theorem decodesFamilyEight : Obligations.DecodesFamilyEight := by
  refine fun x y n => ⟨?_, ?_, ?_, ?_, ?_, ?_, ?_, ?_, ?_, fun hn => decodeWord_invalid (.inr (.inl ?invalid))⟩
  case invalid =>
    rw [cat_wordXyn, fieldF_wordXyn, fieldN_wordXyn]
    exact ⟨rfl, hn⟩
  all_goals exact decodeWord_of_encode (cat_wordXyn ..) rfl

/-- Settles O5: the kk named give encodings, every other kk a form of R91. -/
theorem decodesFamiliesEAndF : Obligations.DecodesFamiliesEAndF := by
  refine fun x kk => ⟨?_, ?_, fun hkk => decodeWord_invalid (.inr (.inr (.inl ?invalidE))), ?_, ?_, ?_, ?_, ?_, ?_,
    ?_, ?_, ?_, fun hkk => decodeWord_invalid (.inr (.inr (.inr ?invalidF)))⟩
  case invalidE | invalidF =>
    rw [cat_wordXkk, fieldF_wordXkk, fieldKk_wordXkk]
    exact ⟨rfl, hkk⟩
  all_goals exact decodeWord_of_encode (cat_wordXkk ..) rfl

end Sys2Proof

namespace Sys2Proof.Machine

/-! ## No refusal (30_encoding.md R98) -/

/-- Every arm of exec is a next state, or a settled computation that may fault. -/
theorem exec_ne_refused (i : Instr) (s : State) (r : Refusal) : exec i s ≠ .refused r := by
  cases i
  case ret | call | drw | skp | sknp | ldB | storeRegs | loadRegs => exact settle_refused _ r
  all_goals nofun

theorem finishCycle_ne_refused {o : Host.Outcome State Fault Refusal} {r : Refusal} (h : o ≠ .refused r) :
    finishCycle o ≠ .refused r := by
  cases o with
  | next | fault => nofun
  | refused => exact h

theorem runWord_ne_refused (s : State) (w : Word) (r : Refusal) : runWord s w ≠ .refused r := by
  rw [runWord]
  split
  · exact finishCycle_ne_refused (exec_ne_refused _ _ r)
  · nofun

/-- Settles O53: of a Step's parts only the instruction could be refused, and none is. -/
theorem noStepRefused : Obligations.NoStepRefused := by
  intro s r
  rw [step, stepByStatus]
  split
  · rw [cycle]
    split
    · exact runWord_ne_refused _ _ r
    · nofun
  · nofun
  · nofun

/-! ## The Step by status (30_encoding.md R96, R97) -/

theorem step_of_halted {s : State} (hs : s.status = .halted) : step s = .next s := by
  rw [step, stepByStatus, hs]

theorem step_of_faulted {s : State} {f : Fault} (hs : s.status = .faulted f) : step s = .fault f := by
  rw [step, stepByStatus, hs]

theorem step_of_fetch_error {s : State} {f : Fault} (hs : s.status = .running)
    (hf : fetchWord (tick s) = .error f) : step s = .fault f := by
  rw [step, stepByStatus, hs]
  simp only [cycle, hf]

theorem transact_of_running {s : State} (a : StepInput) (hs : s.status = .running) :
    transact s a = conclude s (step (s.withInput a)) := by
  rw [transact, hs]

theorem transact_of_halted {s : State} (a : StepInput) (hs : s.status = .halted) : transact s a = (s, .stops) := by
  rw [transact, hs]

theorem transact_of_faulted {s : State} {f : Fault} (a : StepInput) (hs : s.status = .faulted f) :
    transact s a = (s, .faults f) := by
  rw [transact, hs]

/-- Settles O44: Step and transaction by the status alone. -/
theorem stoppedCoresDoNothing : Obligations.StoppedCoresDoNothing := fun _ a =>
  ⟨fun hs => ⟨step_of_halted hs, transact_of_halted a hs⟩,
    fun _ hs => ⟨step_of_faulted hs, transact_of_faulted a hs⟩⟩

/-! ## The fetch (30_encoding.md R96, 60_exceptions.md R195) -/

/-- A fetch that reaches past memory faults at its first address outside. -/
theorem fetchWord_outside {s : State} (h : 4095 ≤ s.pc.toNat) : fetchWord s =
    .error (.memoryRange s.fetchSite (if s.pc.toNat = 4095 then 4096 else s.pc.toNat)) := by
  rw [fetchWord, memRead, memRead]
  by_cases hpc : s.pc.toNat = 4095
  · rw [hpc]; rfl
  · have hout : ¬ s.pc.toNat < 4096 := by omega
    rw [if_neg hout, if_neg hpc]; rfl

/-- Settles O42: the tick leaves pc as it is, and its events are those the record holds. -/
theorem fetchOutsideMemoryFaults : Obligations.FetchOutsideMemoryFaults := fun _ hs hpc =>
  step_of_fetch_error hs (fetchWord_outside hpc)

theorem sameBut_endCycle (t : State) : SameBut [.inputs, .cycles] t t.endCycle := by
  intro p hp
  cases p <;> simp_all [Same]

/-- Settles O41: the fetch lies inside memory, and the end of the cycle is all that comes after the instruction. -/
theorem stepRunsDecoded : Obligations.StepRunsDecoded := by
  intro s i hs hpc hi
  have hstep : step s = finishCycle (exec i ((tick s).setPc (s.pc + 2))) :=
    step_of_decoded hs (fetchWord_fits hpc) hi
  refine ⟨fun t ht => ⟨?_, sameBut_endCycle t, rfl, rfl⟩, fun f hf => ?_⟩
  · rw [hstep, ht]; rfl
  · rw [hstep, hf]; rfl

/-! ## What the transaction returns (30_encoding.md R96, 44_input_timers.md R178) -/

section
variable {s t : State} {a : StepInput} (hs : s.status = .running) (h : step (s.withInput a) = .next t)
include hs h

theorem transact_of_next_halted (ht : t.status = .halted) : transact s a = (t, .stops) := by
  rw [transact_of_running a hs, h, conclude, if_pos ht]

theorem transact_of_next_not_halted (ht : t.status ≠ .halted) : transact s a = (t, .continues) := by
  rw [transact_of_running a hs, h, conclude, if_neg ht]

end

theorem exec_ldKey_none {x : RegId} {s : State} (h : s.input.keyWait = none) :
    exec (.ldKey x) s = .next (s.setStatus .halted) := by
  rw [exec, execLdKey, h]

theorem exec_ldKey_some {x : RegId} {s : State} {k : Key} (h : s.input.keyWait = some k) :
    exec (.ldKey x) s = .next (s.setReg x (BitVec.ofNat Config.regBits k.val)) := by
  rw [exec, execLdKey, h]

/-- A key number fits a register. -/
theorem toNat_keyValue (k : Key) : (BitVec.ofNat Config.regBits k.val).toNat = k.val := by
  have : k.val < 16 := k.isLt
  rw [BitVec.toNat_ofNat, two_pow_regBits, Nat.mod_eq_of_lt (by omega)]

theorem toNat_add_two {a : Pc} (h : a.toNat + 1 < 4096) : (a + 2).toNat = a.toNat + 2 := by
  rw [← nextPc, toNat_nextPc, Nat.mod_eq_of_lt (by omega)]

/-- Settles O60: the first clause by the status the Step leaves, the other two with the Step of O41, whose instruction
halts or writes one register. -/
theorem transactionReturns : Obligations.TransactionReturns := by
  intro s a hs
  refine ⟨fun t h => ⟨transact_of_next_halted hs h, transact_of_next_not_halted hs h⟩, fun x hpc hx => ?_⟩
  obtain ⟨hstep, _⟩ := stepRunsDecoded (s.withInput a) (.ldKey x) hs hpc hx
  constructor
  · intro hk
    obtain ⟨hnext, _⟩ := hstep _ (exec_ldKey_none hk)
    rw [transact_of_next_halted hs hnext rfl]
    refine ⟨rfl, rfl, toNat_add_two hpc, fun p hp => ?_⟩
    cases p <;> simp_all [Same]
  · intro k hk
    obtain ⟨hnext, _⟩ := hstep _ (exec_ldKey_some hk)
    rw [transact_of_next_not_halted hs hnext (by simp [hs])]
    refine ⟨rfl, hs, toNat_add_two hpc, ?_, fun r hr => by simp [hr], fun p hp => ?_⟩
    · rw [State.reg_endCycle, State.reg_setReg, if_pos rfl, toNat_keyValue]
    · cases p <;> simp_all [Same]

end Sys2Proof.Machine

/-!
PROOFS of the family 40_control_flow.md. Each instruction has an equation for its outcome and its frame from the state
operations it is made of; the four compare-and-skip instructions share one lemma for equal and one for unequal.
-/
namespace Sys2Proof.Machine

/-! ## Frames of the writes of pc and of the call stack -/

theorem SameBut.trans {ps qs : List Part} {s t u : State} (h : SameBut ps s t) (h' : SameBut qs t u) :
    SameBut (ps ++ qs) s u := by
  intro p hp
  have hst : Same s t p := h p fun hm => hp (List.mem_append_left _ hm)
  have htu : Same t u p := h' p fun hm => hp (List.mem_append_right _ hm)
  cases p <;> simp_all [Same]

theorem sameBut_setPc (s : State) (a : Pc) : SameBut [.pc] s (s.setPc a) := by
  intro p hp
  cases p <;> simp_all [Same]

theorem sameBut_setStack (s : State) (l : List RetAddr) : SameBut [.stack] s (s.setStack l) := by
  intro p hp
  cases p <;> simp_all [Same]

/-- The two writes of a CALL or a RET, in either order. -/
theorem sameBut_setStack_setPc (s : State) (l : List RetAddr) (a : Pc) :
    SameBut [.pc, .stack] s ((s.setStack l).setPc a) :=
  (sameBut_setPc s a).trans (sameBut_setStack (s.setPc a) l)

/-! ## SYS and the jumps (40_control_flow.md R110, R112, R118) -/

/-- Settles O10: the Step of O41, whose instruction answers the state the fetch left. -/
theorem sysChangesNothing : Obligations.SysChangesNothing := by
  intro nnn s hcls hret
  obtain ⟨_, _, hsys⟩ := decodesFamilyZero
  have hdecode := hsys nnn hcls hret
  refine ⟨hdecode, ⟨s, rfl, SameBut.refl s⟩, fun hs hpc hw => ?_⟩
  obtain ⟨hstep, _⟩ := stepRunsDecoded s (.sys nnn) hs hpc (hw ▸ hdecode)
  obtain ⟨hnext, hframe, _⟩ := hstep _ rfl
  exact ⟨_, hnext, toNat_nextPc s.pc, (sameBut_setPc _ _).trans hframe⟩

/-- Settles O11: the field nnn keeps its value in pc. -/
theorem jumpSetsPc : Obligations.JumpSetsPc := fun nnn s =>
  ⟨roundTrip (.jp nnn) rfl, _, rfl, toNat_zextAddr nnn, sameBut_setPc s _⟩

/-- Settles O12: the sum as a value of pc, and its bound. -/
theorem jumpAddsV0 : Obligations.JumpAddsV0 := fun nnn s =>
  ⟨roundTrip (.jpV0 nnn) rfl, _, rfl, BitVec.toNat_ofNat .., toNat_jumpV0_le nnn (s.reg 0), sameBut_setPc s _⟩

/-! ## CALL and RET (40_control_flow.md R111, R113; 10_state.md R28) -/

theorem exec_call_room (nnn : Addr12) {s : State} (h : s.stack.length < Config.stackDepth) :
    exec (.call nnn) s = .next ((s.setStack (s.stack ++ [s.pc])).setPc (zextAddr _ nnn)) := by
  rw [exec, execCall, toEntry_eq, push_room _ _ h]
  rfl

theorem exec_call_full (nnn : Addr12) {s : State} (h : Config.stackDepth ≤ s.stack.length) :
    exec (.call nnn) s = .fault (.stackOverflow (s.faultSite (.call nnn))) := by
  rw [exec, execCall, push_full _ _ h]
  rfl

/-- A CALL that completes found room, and left pc on top of the stack. -/
theorem stack_of_exec_call {nnn : Addr12} {s t : State} (h : exec (.call nnn) s = .next t) :
    t.stack = s.stack ++ [s.pc] := by
  rcases Nat.lt_or_ge s.stack.length Config.stackDepth with hroom | hfull
  · rw [exec_call_room nnn hroom] at h
    injection h with h
    exact h ▸ rfl
  · rw [exec_call_full nnn hfull] at h
    injection h

theorem exec_ret_top {s : State} {rest : List RetAddr} {a : RetAddr} (h : s.stack = rest ++ [a]) :
    exec .ret s = .next ((s.setStack rest).setPc a) := by
  rw [exec, execRet, h, pop_concat]
  show Host.Outcome.next ((s.setStack rest).setPc (ofEntry a)) = _
  rw [ofEntry_eq]

theorem exec_ret_empty {s : State} (h : s.stack = []) :
    exec .ret s = .fault (.stackUnderflow (s.faultSite .ret)) := by
  rw [exec, execRet, h, pop_nil]
  rfl

/-- Settles O13: CALL with room and with none. -/
theorem callPushesReturn : Obligations.CallPushesReturn := fun nnn s =>
  ⟨roundTrip (.call nnn) rfl,
    fun hroom => ⟨_, exec_call_room nnn hroom, rfl, toNat_zextAddr nnn, sameBut_setStack_setPc s _ _⟩,
    fun hfull => ⟨_, exec_call_full nnn (Nat.le_of_eq hfull.symm)⟩⟩

/-- Settles O14: RET with a top entry and with none. -/
theorem returnPops : Obligations.ReturnPops := fun s =>
  ⟨roundTrip .ret rfl, fun _ _ htop => ⟨_, exec_ret_top htop, rfl, rfl, sameBut_setStack_setPc s _ _⟩,
    fun hempty => ⟨_, exec_ret_empty hempty⟩⟩

/-- Settles O17: the CALL left its return address on top of the stack it found, and RET pops that (O14). -/
theorem returnUndoesCall : Obligations.ReturnUndoesCall := by
  intro nnn s t u hcall hu
  obtain ⟨_, hpop, _⟩ := returnPops u
  exact hpop s.stack s.pc (hu.trans (stack_of_exec_call hcall))

/-! ## The skips (40_control_flow.md R114 to R117, R119) -/

theorem sameBut_skipIf (s : State) (b : Bool) : SameBut [.pc] s (s.skipIf b) := sameBut_setPc s _

theorem State.toNat_pc_skipIf (s : State) (b : Bool) :
    (s.skipIf b).pc.toNat = if b then (s.pc.toNat + 2) % 65536 else s.pc.toNat := by
  cases b with
  | false => rfl
  | true => exact toNat_nextPc s.pc

section
variable {i : Instr} {s : State} {a b : RegVal}

theorem skips_of_eq (h : exec i s = .next (s.skipIf (a == b))) : ∃ t, exec i s = .next t ∧
    t.pc.toNat = (if a = b then (s.pc.toNat + 2) % 65536 else s.pc.toNat) ∧ SameBut [.pc] s t :=
  ⟨_, h, by simp only [State.toNat_pc_skipIf, beq_iff_eq], sameBut_skipIf s _⟩

theorem skips_of_ne (h : exec i s = .next (s.skipIf (a != b))) : ∃ t, exec i s = .next t ∧
    t.pc.toNat = (if a = b then s.pc.toNat else (s.pc.toNat + 2) % 65536) ∧ SameBut [.pc] s t :=
  ⟨_, h, by simp only [State.toNat_pc_skipIf, bne_iff_ne, ite_not], sameBut_skipIf s _⟩

end

theorem exec_seImm (x : RegId) (kk : Byte) (s : State) :
    exec (.seImm x kk) s = .next (s.skipIf (s.reg x == kk)) := by
  rw [exec, execSeImm, byteToReg_eq]

theorem exec_sneImm (x : RegId) (kk : Byte) (s : State) :
    exec (.sneImm x kk) s = .next (s.skipIf (s.reg x != kk)) := by
  rw [exec, execSneImm, byteToReg_eq]

/-- Settles O15: SE skips on equal and SNE on unequal. -/
theorem skipsOnImmediate : Obligations.SkipsOnImmediate := fun _ kk s =>
  ⟨decodeWord_of_encode (cat_wordXkk ..) rfl, decodeWord_of_encode (cat_wordXkk ..) rfl,
    skips_of_eq (exec_seImm _ kk s), skips_of_ne (exec_sneImm _ kk s)⟩

/-- Settles O16: the words by O3; SE skips on equal and SNE on unequal. -/
theorem skipsOnRegisters : Obligations.SkipsOnRegisters := by
  intro x y s
  obtain ⟨hse, hsne, _⟩ := decodesFamiliesFiveAndNine x y 0
  refine ⟨hse, hsne, fun n hn => ?_, skips_of_eq rfl, skips_of_ne rfl⟩
  obtain ⟨_, _, hinvalid⟩ := decodesFamiliesFiveAndNine x y n
  exact hinvalid hn

end Sys2Proof.Machine

/-!
PROOFS of the family 41_alu.md. Every instruction of the family answers a next state made of register writes; the
frame of such a state is built write by write (`OnlyRegs.setReg`). What the flag computations and the 8-bit operations
mean on natural numbers is said once, and each shape of result followed by a flag has one lemma for its instructions.
-/
namespace Sys2Proof.Machine

/-! ## Frames and reads after register writes -/

theorem OnlyRegs.refl (l : List RegId) (s : State) : OnlyRegs l s s :=
  ⟨fun _ _ => rfl, fun p _ => SameBut.refl s p List.not_mem_nil⟩

/-- One more write, of a register the frame already names. -/
theorem OnlyRegs.setReg {l : List RegId} {s t : State} {x : RegId} (h : OnlyRegs l s t) (hx : x ∈ l) (b : RegVal) :
    OnlyRegs l s (t.setReg x b) := by
  obtain ⟨hregs, hparts⟩ := h
  obtain ⟨hregs', hparts'⟩ := onlyRegs_setReg t x b
  refine ⟨fun r hr => ?_, fun p hp => hparts.trans hparts' p (by simpa using hp)⟩
  have hne : r ∉ [x] := fun h => hr (List.mem_singleton.1 h ▸ hx)
  rw [hregs' r hne, hregs r hr]

/-- The flag is a register write of VF. -/
theorem OnlyRegs.setFlag {l : List RegId} {s t : State} (h : OnlyRegs l s t) (hvf : vf ∈ l) (c : Bool) :
    OnlyRegs l s (t.setFlag c) :=
  h.setReg hvf (flagByte c)

theorem State.reg_setReg_same (s : State) (x : RegId) (b : RegVal) : (s.setReg x b).reg x = b := by
  rw [State.reg_setReg, if_pos rfl]

theorem State.reg_setFlag_vf (s : State) (c : Bool) : (s.setFlag c).reg vf = flagByte c :=
  State.reg_setReg_same s vf (flagByte c)

theorem State.reg_setFlag_of_ne (s : State) (c : Bool) {r : RegId} (h : r ≠ vf) : (s.setFlag c).reg r = s.reg r := by
  rw [State.reg_setFlag, if_neg h]

/-! ## Flags and results on natural numbers (41_alu.md R130, R139, R141) -/

theorem flagByte_carryOut (a b : RegVal) :
    flagByte (carryOut a b) = if a.toNat + b.toNat > 255 then 1 else 0 := by
  simp only [flagByte, carryOut, decide_eq_true_eq]
  rfl

theorem flagByte_notBorrow (a b : RegVal) : flagByte (notBorrow a b) = if a.toNat ≥ b.toNat then 1 else 0 := by
  simp only [flagByte, notBorrow, decide_eq_true_eq]

theorem toNat_flagByte (c : Bool) : (flagByte c).toNat = c.toNat := by
  cases c <;> rfl

theorem toNat_flagByte_bitOutRight (b : RegVal) : (flagByte (bitOutRight b)).toNat = b.toNat % 2 := by
  rw [toNat_flagByte, bitOutRight, ← BitVec.testBit_toNat, Nat.toNat_testBit, pow_zero, Nat.div_one]

/-- Bit 7 is the highest, so the quotient it is read from is 0 or 1. -/
theorem toNat_flagByte_bitOutLeft (b : RegVal) : (flagByte (bitOutLeft b)).toNat = b.toNat / 128 := by
  have := reg_lt b
  rw [toNat_flagByte, bitOutLeft, ← BitVec.testBit_toNat, Nat.toNat_testBit]
  show b.toNat / 128 % 2 = b.toNat / 128
  omega

/-- A difference that would be negative wraps by 256. -/
theorem toNat_difference (a b : RegVal) :
    (a - b).toNat = if a.toNat ≥ b.toNat then a.toNat - b.toNat else a.toNat + 256 - b.toNat := by
  have := reg_lt a
  have := reg_lt b
  rw [BitVec.toNat_sub, two_pow_regBits]
  split <;> omega

theorem toNat_halved (b : RegVal) : (b >>> 1).toNat = b.toNat / 2 := by
  rw [BitVec.toNat_ushiftRight, Nat.shiftRight_one]

theorem toNat_doubled (b : RegVal) : (b <<< 1).toNat = b.toNat * 2 % 256 := by
  rw [BitVec.toNat_shiftLeft, Nat.shiftLeft_eq, pow_one, two_pow_regBits]

/-! ## A result, then the flag (41_alu.md R137 to R141; 10_state.md R36) -/

section
variable {i : Instr} {x y : RegId} {s : State} {b : RegVal} {c : Bool} {n : Nat}

/-- The result in Vx, which only the flag can overwrite. -/
theorem arith_answers {f : RegVal} (h : exec i s = .next ((s.setReg x b).setFlag c)) (hb : b.toNat = n)
    (hc : flagByte c = f) : ∃ t, exec i s = .next t ∧ (x ≠ vf → (t.reg x).toNat = n) ∧ t.reg vf = f ∧
      OnlyRegs [x, vf] s t := by
  refine ⟨_, h, fun hx => ?_, (State.reg_setFlag_vf _ c).trans hc,
    ((OnlyRegs.refl _ s).setReg (by simp) b).setFlag (by simp) c⟩
  rw [State.reg_setFlag_of_ne _ c hx, State.reg_setReg_same, hb]

/-- The result in Vy and in Vx, each of which only the flag can overwrite. -/
theorem shift_answers {f : Nat} (h : exec i s = .next (((s.setReg y b).setReg x b).setFlag c)) (hb : b.toNat = n)
    (hc : (flagByte c).toNat = f) : ∃ t, exec i s = .next t ∧
      (∀ r, r ≠ vf → (r = x ∨ r = y) → (t.reg r).toNat = n) ∧ (t.reg vf).toNat = f ∧ OnlyRegs [x, y, vf] s t := by
  refine ⟨_, h, fun r hr hxy => ?_, (congrArg _ (State.reg_setFlag_vf _ c)).trans hc,
    (((OnlyRegs.refl _ s).setReg (by simp) b).setReg (by simp) b).setFlag (by simp) c⟩
  rw [State.reg_setFlag_of_ne _ c hr, ← hb]
  obtain rfl | rfl := hxy
  · rw [State.reg_setReg_same]
  · rw [State.reg_setReg, State.reg_setReg_same, ite_self]

end

/-- Settles O20: the sum wraps and its carry is the flag. -/
theorem addSetsCarry : Obligations.AddSetsCarry := fun _ _ _ =>
  arith_answers rfl (BitVec.toNat_add ..) (flagByte_carryOut ..)

/-- Settles O21: SUB and SUBN differ in which operand is taken from which. -/
theorem subtractSetsNotBorrow : Obligations.SubtractSetsNotBorrow := fun _ _ _ =>
  ⟨arith_answers rfl (toNat_difference ..) (flagByte_notBorrow ..),
    arith_answers rfl (toNat_difference ..) (flagByte_notBorrow ..)⟩

/-- Settles O22: both shifts take the old Vy, right and left. -/
theorem shiftsTakeVy : Obligations.ShiftsTakeVy := fun _ _ _ =>
  ⟨shift_answers rfl (toNat_halved _) (toNat_flagByte_bitOutRight _),
    shift_answers rfl (toNat_doubled _) (toNat_flagByte_bitOutLeft _)⟩

/-! ## A result in Vx and no flag (41_alu.md R131 to R136, R142) -/

theorem exec_ldImm (x : RegId) (kk : Byte) (s : State) : exec (.ldImm x kk) s = .next (s.setReg x kk) := by
  rw [exec, execLdImm, byteToReg_eq]

theorem exec_addImm (x : RegId) (kk : Byte) (s : State) :
    exec (.addImm x kk) s = .next (s.setReg x (s.reg x + kk)) := by
  rw [exec, execAddImm, byteToReg_eq]

theorem exec_rnd (x : RegId) (kk : Byte) (s : State) :
    exec (.rnd x kk) s = .next (s.setReg x (s.input.randomByte &&& kk)) := by
  rw [exec, execRnd, byteToReg_eq]

/-- Settles O18: the words by O2; the value in Vx is kk, or the sum that wraps. -/
theorem loadAndAddImmediate : Obligations.LoadAndAddImmediate := by
  intro x kk s
  obtain ⟨_, _, _, _, hld, hadd, _⟩ := decodesPlainFamilies 0 x 0 0 kk
  refine ⟨hld, hadd, ⟨_, exec_ldImm _ kk s, State.reg_setReg_same .., onlyRegs_setReg ..⟩,
    ⟨_, exec_addImm _ kk s, ?_, onlyRegs_setReg ..⟩⟩
  rw [State.reg_setReg_same, BitVec.toNat_add, two_pow_regBits]

/-- Settles O19: the words by O4; the value in Vx is Vy, or the bitwise operation's. -/
theorem copyAndLogic : Obligations.CopyAndLogic := by
  intro x y s
  obtain ⟨hld, hor, hand, hxor, _⟩ := decodesFamilyEight x y 0
  refine ⟨hld, hor, hand, hxor, ⟨_, rfl, State.reg_setReg_same .., onlyRegs_setReg ..⟩,
    ⟨_, rfl, fun k _ => ?or, onlyRegs_setReg ..⟩, ⟨_, rfl, fun k _ => ?and, onlyRegs_setReg ..⟩,
    ⟨_, rfl, fun k _ => ?xor, onlyRegs_setReg ..⟩⟩
  case or => rw [State.reg_setReg_same, BitVec.getLsbD_or]
  case and => rw [State.reg_setReg_same, BitVec.getLsbD_and]
  case xor => rw [State.reg_setReg_same, BitVec.getLsbD_xor]

/-- Settles O23: a byte masked by kk has no bit outside kk, whichever byte it is; a laid-down input names the byte. -/
theorem randomByteMasked : Obligations.RandomByteMasked := by
  intro x kk s
  refine ⟨⟨_, exec_rnd x kk s, ?mask, onlyRegs_setReg ..⟩,
    fun a => ⟨_, exec_rnd x kk (s.withInput a), fun k _ => ?bits, onlyRegs_setReg ..⟩⟩
  case mask =>
    rw [State.reg_setReg_same, BitVec.and_assoc, BitVec.and_not_self]
    exact BitVec.and_zero
  case bits => rw [State.reg_setReg_same, State.input_withInput, BitVec.getLsbD_and]

end Sys2Proof.Machine

/-!
PROOFS of the family 42_index_memory.md. A transfer is said over its bytes at I, I + 1, ..: what is read back after they
are stored, what they are when loaded, and the fault of a transfer that leaves memory. LD B, LD [I] and LD Vx,[I] have an
equation each for the outcome inside memory and for the one outside.
-/
namespace Sys2Proof.Machine

/-! ## Frames of the writes of I, of memory and of V0..Vx -/

theorem sameBut_setI (s : State) (a : BitVec Config.iBits) : SameBut [.i] s (s.setI a) := by
  intro p hp
  cases p <;> simp_all [Same]

theorem sameBut_setMem (s : State) (m : Memory) : SameBut [.mem] s (s.setMem m) := by
  intro p hp
  cases p <;> simp_all [Same]

theorem sameBut_setRegs (s : State) (bs : List RegVal) : SameBut [.regs] s (s.setRegs bs) := by
  intro p hp
  cases p <;> simp_all [Same]

theorem sameBut_setFlag (s : State) (c : Bool) : SameBut [.regs] s (s.setFlag c) := by
  obtain ⟨_, hframe⟩ := onlyRegs_setReg s vf (flagByte c)
  exact hframe

/-! ## The address register (42_index_memory.md R150 to R152) -/

/-- Settles O24: the field nnn keeps its value in I. -/
theorem loadIndex : Obligations.LoadIndex := fun nnn s =>
  ⟨roundTrip (.ldI nnn) rfl, _, rfl, toNat_zextAddr nnn, sameBut_setI s _⟩

theorem flagByte_carryOutI (a : BitVec Config.iBits) (b : RegVal) :
    flagByte (carryOutI a b) = if a.toNat + b.toNat > 65535 then 1 else 0 := by
  simp only [flagByte, carryOutI, decide_eq_true_eq]
  rfl

/-- Settles O25: the sum wraps in I, and its carry is the one register write. -/
theorem addToIndex : Obligations.AddToIndex := fun x s =>
  ⟨_, rfl, BitVec.toNat_ofNat .., (State.reg_setFlag_vf ..).trans (flagByte_carryOutI s.i (s.reg x)),
    fun _ hr => State.reg_setFlag_of_ne _ _ hr, (sameBut_setI s _).trans (sameBut_setFlag _ _)⟩

/-- The largest glyph address is 255 × 5, so it does not wrap. -/
theorem toNat_glyphAddr (b : RegVal) : (glyphAddr b).toNat = b.toNat * 5 := by
  have := reg_lt b
  have hfits : b.toNat * 5 < 65536 := by omega
  rw [glyphAddr, BitVec.toNat_ofNat, two_pow_iBits]
  exact Nat.mod_eq_of_lt hfits

/-- Glyph d lies at 5d to 5d + 4 (20_memory.md R54). -/
theorem unloadedByte_glyph {d k : Nat} (hd : d < 16) (hk : k < 5) :
    unloadedByte (d * 5 + k) = (fontGlyphs.getD d []).getD k 0 := by
  have hfont : 0 ≤ d * 5 + k ∧ d * 5 + k < 0 + 80 := by omega
  have hglyph : (d * 5 + k) / 5 = d := by omega
  have hbyte : (d * 5 + k) % 5 = k := by omega
  rw [unloadedByte, if_pos hfont, fontByte, Nat.sub_zero, hglyph, hbyte]

/-- Settles O26: reset memory lists nothing, so at I + k it reads as the font table. -/
theorem fontGlyphAddress : Obligations.FontGlyphAddress := by
  intro x s
  refine ⟨_, rfl, toNat_glyphAddr (s.reg x), sameBut_setI s _, fun d k hd hk hx => ?_⟩
  rw [State.effAddr, State.setI_i, toNat_glyphAddr, hx]
  exact unloadedByte_glyph hd hk

/-! ## The bytes of a transfer (20_memory.md R51, R52, R59) -/

section
variable {s : State} {bs : List Byte}

/-- Inside the bytes stored from I on, memory reads as the byte stored. -/
theorem read_writeAll_effAddr (hmem : s.mem.rising = true) {k : Nat} (hk : k < bs.length) :
    (s.mem.writeAll (s.effAddr 0) bs).read (s.effAddr k) = bs[k] := by
  have hbase : s.effAddr 0 ≤ s.effAddr k := Nat.add_le_add_left (Nat.zero_le k) _
  have hoffset : s.effAddr k - s.effAddr 0 = k := Nat.add_sub_cancel_left ..
  rw [Memory.read_writeAll hmem, if_pos hbase, hoffset, List.getD_eq_getElem _ _ hk]

/-- Everywhere else memory reads as before. -/
theorem read_writeAll_other (hmem : s.mem.rising = true) {a : Nat} (ha : ∀ k < bs.length, a ≠ s.effAddr k) :
    (s.mem.writeAll (s.effAddr 0) bs).read a = s.mem.read a := by
  rw [Memory.read_writeAll hmem]
  split
  · next hbase =>
    have haddr : a = s.effAddr (a - s.effAddr 0) := (Nat.add_sub_of_le hbase).symm
    exact List.getD_eq_default _ _ (Nat.le_of_not_lt fun hlt => ha _ hlt haddr)
  · rfl

/-- A store whose last byte would lie outside memory faults at its first address outside. -/
theorem storeBytes_effAddr_outside (site : FaultSite) {k : Nat} (hlen : bs.length = k + 1)
    (h : 4096 ≤ s.effAddr k) : storeBytes site s.mem (s.effAddr 0) bs =
      .error (.memoryRange site (if s.effAddr 0 ≥ 4096 then s.effAddr 0 else 4096)) := by
  have hne : bs ≠ [] := List.ne_nil_of_length_eq_add_one hlen
  have hpast : Config.memSize < s.effAddr 0 + bs.length := hlen ▸ Nat.lt_succ_of_le h
  rw [storeBytes_overflow site hne hpast, max_def']

/-- A load whose last byte would lie outside memory faults at its first address outside. -/
theorem loadBytes_effAddr_outside (site : FaultSite) {k : Nat} (h : 4096 ≤ s.effAddr k) :
    loadBytes site s.mem (s.effAddr 0) (k + 1) =
      .error (.memoryRange site (if s.effAddr 0 ≥ 4096 then s.effAddr 0 else 4096)) := by
  have hpast : Config.memSize < s.effAddr 0 + (k + 1) := Nat.lt_succ_of_le h
  rw [loadBytes_overflow site (Nat.succ_ne_zero k) hpast, max_def']

end

/-! ## LD B (42_index_memory.md R153) -/

theorem exec_ldB_fits (x : RegId) {s : State} (h : s.effAddr 2 < 4096) : exec (.ldB x) s =
    .next (s.setMem (s.mem.writeAll (s.effAddr 0) (bcdDigits (s.reg x)))) := by
  rw [exec, execLdB, storeBytes_fits _ h]
  rfl

theorem exec_ldB_outside (x : RegId) {s : State} (h : 4096 ≤ s.effAddr 2) : exec (.ldB x) s =
    .fault (.memoryRange (s.faultSite (.ldB x)) (if s.effAddr 0 ≥ 4096 then s.effAddr 0 else 4096)) := by
  rw [exec, execLdB, storeBytes_effAddr_outside _ rfl h]
  rfl

/-- A number no larger than a register's value fits a byte. -/
theorem toNat_byte_of_le {n : Nat} {b : RegVal} (h : n ≤ b.toNat) : (BitVec.ofNat 8 n).toNat = n := by
  have := reg_lt b
  exact Nat.mod_eq_of_lt (by omega)

/-- Settles O27: the three digits are the bytes stored at I, I + 1 and I + 2. -/
theorem bcdStoresDigits : Obligations.BcdStoresDigits := by
  intro x s
  refine ⟨decodeWord_of_encode (cat_wordXkk ..) rfl, fun hwf hfits => ?_, fun hout => ⟨_, exec_ldB_outside _ hout⟩⟩
  have hmem : s.mem.rising = true := Memory.wf_rising hwf
  refine ⟨_, exec_ldB_fits _ hfits, ?hundreds, ?tens, ?units, fun a h0 h1 h2 => ?other, sameBut_setMem s _⟩
  case hundreds =>
    rw [State.setMem_mem, read_writeAll_effAddr hmem (Nat.zero_lt_succ 2)]
    exact toNat_byte_of_le (Nat.div_le_self ..)
  case tens =>
    rw [State.setMem_mem, read_writeAll_effAddr hmem (show 1 < 3 by decide)]
    exact toNat_byte_of_le ((Nat.mod_le ..).trans (Nat.div_le_self ..))
  case units =>
    rw [State.setMem_mem, read_writeAll_effAddr hmem (show 2 < 3 by decide)]
    exact toNat_byte_of_le (Nat.mod_le ..)
  case other =>
    refine read_writeAll_other hmem fun k hk => ?_
    match k, hk with
    | 0, _ => exact h0
    | 1, _ => exact h1
    | 2, _ => exact h2

/-! ## LD [I] and LD Vx,[I] (42_index_memory.md R154, R155) -/

theorem State.toNat_advancedI (s : State) (x : RegId) :
    (s.advancedI x).toNat = (s.i.toNat + x.val + 1) % 65536 := BitVec.toNat_ofNat ..

theorem exec_storeRegs_fits {x : RegId} {s : State} (h : s.effAddr x.val < 4096) : exec (.storeRegs x) s =
    .next ((s.setMem (s.mem.writeAll (s.effAddr 0) (s.regsTo x))).setI (s.advancedI x)) := by
  have hfits : s.effAddr 0 + (s.regsTo x).length ≤ Config.memSize := (s.regsTo_length x).symm ▸ h
  rw [exec, execStoreRegs, storeBytes_fits _ hfits]
  rfl

theorem exec_storeRegs_outside {x : RegId} {s : State} (h : 4096 ≤ s.effAddr x.val) : exec (.storeRegs x) s =
    .fault (.memoryRange (s.faultSite (.storeRegs x)) (if s.effAddr 0 ≥ 4096 then s.effAddr 0 else 4096)) := by
  rw [exec, execStoreRegs, storeBytes_effAddr_outside _ (s.regsTo_length x) h]
  rfl

/-- A number below the count of V0..Vx is one of their numbers. -/
theorem le_of_lt_regsTo_length {s : State} {x : RegId} {k : Nat} (hk : k < (s.regsTo x).length) : k ≤ x.val := by
  rw [State.regsTo_length, countTo] at hk
  exact Nat.le_of_lt_succ hk

/-- Settles O28: V0..Vx are the bytes stored from I on. -/
theorem storeRegisters : Obligations.StoreRegisters := by
  intro x s
  refine ⟨decodeWord_of_encode (cat_wordXkk ..) rfl, fun hwf hfits => ?_,
    fun hout => ⟨_, exec_storeRegs_outside hout⟩⟩
  have hmem : s.mem.rising = true := Memory.wf_rising hwf
  refine ⟨_, exec_storeRegs_fits hfits, fun r hr => read_storedRegs hmem hr, fun a ha => ?other,
    s.toNat_advancedI _, (sameBut_setMem s _).trans (sameBut_setI _ _)⟩
  case other =>
    refine read_writeAll_other hmem fun k hk => ?_
    have hkx : k ≤ (regOf x).val := le_of_lt_regsTo_length hk
    exact ha ⟨k, Nat.lt_of_le_of_lt hkx (regOf x).isLt⟩ hkx

/-- V0..Vx as LD Vx,[I] finds them in memory. -/
def State.loadedRegs (s : State) (x : RegId) : List RegVal :=
  (List.range' (s.effAddr 0) (countTo x)).map s.mem.read

theorem exec_loadRegs_fits {x : RegId} {s : State} (h : s.effAddr x.val < 4096) : exec (.loadRegs x) s =
    .next ((s.setRegs (s.loadedRegs x)).setI (s.advancedI x)) := by
  rw [exec, execLoadRegs, loadBytes_fits _ h]
  show Host.Outcome.next ((s.setRegs ((s.loadedRegs x).map byteToReg)).setI (s.advancedI x)) = _
  rw [map_byteToReg]

theorem exec_loadRegs_outside {x : RegId} {s : State} (h : 4096 ≤ s.effAddr x.val) : exec (.loadRegs x) s =
    .fault (.memoryRange (s.faultSite (.loadRegs x)) (if s.effAddr 0 ≥ 4096 then s.effAddr 0 else 4096)) := by
  rw [exec, execLoadRegs, countTo, loadBytes_effAddr_outside _ h]
  rfl

theorem State.loadedRegs_length (s : State) (x : RegId) : (s.loadedRegs x).length = x.val + 1 := by
  rw [State.loadedRegs, List.length_map, List.length_range', countTo]

/-- A register of the range holds the byte at I + r. -/
theorem reg_setRegs_loadedRegs {s : State} {x r : RegId} (h : r ≤ x) :
    (s.setRegs (s.loadedRegs x)).reg r = s.mem.read (s.effAddr r.val) := by
  have hr : r.val < (s.loadedRegs x).length := s.loadedRegs_length x ▸ Nat.lt_succ_of_le h
  rw [State.reg_setRegs, List.getD_eq_getElem _ _ hr]
  simp [State.loadedRegs, State.effAddr]

/-- A register past the range keeps its value. -/
theorem reg_setRegs_loadedRegs_of_not_le {s : State} {x r : RegId} (h : ¬ r ≤ x) :
    (s.setRegs (s.loadedRegs x)).reg r = s.reg r := by
  have hr : (s.loadedRegs x).length ≤ r.val := s.loadedRegs_length x ▸ Nat.lt_of_not_le h
  rw [State.reg_setRegs, List.getD_eq_default _ _ hr]

/-- Settles O29: V0..Vx are the bytes loaded from I on. -/
theorem loadRegisters : Obligations.LoadRegisters := by
  intro x s
  refine ⟨decodeWord_of_encode (cat_wordXkk ..) rfl, fun hfits => ?_, fun hout => ⟨_, exec_loadRegs_outside hout⟩⟩
  refine ⟨_, exec_loadRegs_fits hfits, fun r hr => ?loaded, fun r hr => ?other, s.toNat_advancedI _,
    (sameBut_setRegs s _).trans (sameBut_setI _ _)⟩
  case loaded => rw [State.reg_setI, reg_setRegs_loadedRegs hr]
  case other => rw [State.reg_setI, reg_setRegs_loadedRegs_of_not_le hr]

/-- Settles O30: the store found its last byte inside memory, so the load from the same I completes, and the byte it
reads for Vr is the one stored of Vr. -/
theorem loadUndoesStore : Obligations.LoadUndoesStore := by
  intro x s t u hwf h hu hi
  obtain ⟨rfl, hlast⟩ := exec_storeRegs_next h
  have haddr : ∀ k, u.effAddr k = s.effAddr k := fun k => by rw [State.effAddr, hi, State.effAddr]
  refine ⟨_, exec_loadRegs_fits ((haddr x.val).trans_lt hlast), fun r hr => ?_, ?_⟩
  · rw [State.reg_setI, reg_setRegs_loadedRegs hr, haddr, hu, State.setI_mem, State.setMem_mem,
      read_storedRegs (Memory.wf_rising hwf) hr]
  · rw [State.setI_i, State.setI_i, State.advancedI, State.advancedI, hi]

end Sys2Proof.Machine

/-!
PROOFS of the family 43_display.md. What DRW answers is said once for each outcome of compositing its sprite onto the
grid (`State.spriteCanvas`): the next state, the renderer's failure, or the compositor's own fault. Drawing twice is
the single draw (O33) used at both states.
-/
namespace Sys2Proof.Machine

/-! ## CLS, and who emits events (43_display.md R166, R168) -/

/-- A frame may name more parts, in any order. -/
theorem SameBut.mono {ps qs : List Part} {s t : State} (h : SameBut ps s t) (hsub : ps ⊆ qs) : SameBut qs s t :=
  fun p hp => h p fun hm => hp (hsub hm)

theorem sameBut_setGrid (s : State) (g : Grid) : SameBut [.grid] s (s.setGrid g) := by
  intro p hp
  cases p <;> simp_all [Same]

theorem sameBut_emit (s : State) (e : Event) : SameBut [.events] s (s.emit e) := by
  intro p hp
  cases p <;> simp_all [Same]

@[simp] theorem Grid.lit_zero (c : Nat) : Grid.lit 0 c = false := BitVec.getLsbD_zero

/-- Settles O32: the zero grid has every cell dark. -/
theorem clearScreen : Obligations.ClearScreen := fun s =>
  ⟨_, rfl, fun c _ => Grid.lit_zero c, rfl, (sameBut_setGrid s 0).trans (sameBut_emit _ _)⟩

/-- Settles O52: of all effects only CLS's and DRW's emit. -/
theorem eventsComeFromDisplay : Obligations.EventsComeFromDisplay := by
  intro i s t h hcls hdrw
  cases exec_effect h with
  | clear => exact absurd rfl hcls
  | draw x y n => exact absurd rfl (hdrw x y n)
  | _ => simp

/-! ## The sprite of a DRW (43_display.md R165, R167) -/

/-- What the compositor answers for DRW's sprite: the grid with the sprite on it and whether a lit cell was hit, or its
fault. -/
def State.spriteCanvas (s : State) (x y : RegId) (n : Height) : Except Fault Canvas :=
  drawSprite (s.faultSite (.drw x y n)) s.mem (s.effAddr 0) (s.reg x) (s.reg y) n.val { grid := s.grid, hit := false }

/-- The state once a composited grid, its collision flag and the event are written. -/
def State.drawn (s : State) (k : Canvas) : State :=
  ((s.setGrid k.grid).setFlag k.hit).emit (.renderDraw k.grid)

theorem sameBut_drawn (s : State) (k : Canvas) : SameBut [.regs, .grid, .events] s (s.drawn k) := by
  have hwrites := ((sameBut_setGrid s k.grid).trans (sameBut_setFlag _ k.hit)).trans
    (sameBut_emit _ (.renderDraw k.grid))
  exact hwrites.mono (by decide)

section
variable {x y : RegId} {n : Height} {s t : State} {k : Canvas}

theorem exec_drw_of_fault {f : Fault} (h : s.spriteCanvas x y n = .error f) : exec (.drw x y n) s = .fault f :=
  settle_fault.2 (bind_error.2 (.inl h))

theorem exec_drw_of_drawOk (h : s.spriteCanvas x y n = .ok k) (hdraw : s.input.drawOk = true) :
    exec (.drw x y n) s = .next (s.drawn k) :=
  settle_next.2 (bind_ok.2 ⟨k, h, if_pos hdraw⟩)

theorem exec_drw_of_drawFails (h : s.spriteCanvas x y n = .ok k) (hdraw : s.input.drawOk = false) :
    exec (.drw x y n) s = .fault (.renderFailure ((s.drawn k).faultSite (.drw x y n))) :=
  settle_fault.2 (bind_error.2 (.inr ⟨k, h, if_neg (ne_true_of_eq_false hdraw)⟩))

/-- A sprite that fits is composited over exactly the cells it covers. -/
theorem spriteCanvas_ok (h : SpriteFits s (s.reg x) (s.reg y) n.val) : ∃ k, s.spriteCanvas x y n = .ok k ∧
    Composited (SpriteCovers s (s.reg x) (s.reg y) n.val) { grid := s.grid, hit := false } k := by
  obtain ⟨k, hk, hcomp⟩ := drawSprite_ok (s.faultSite (.drw x y n)) s.mem (s.effAddr 0) (s.reg x) (s.reg y) n.val
    { grid := s.grid, hit := false } ((spriteFits_iff ..).1 h)
  have hcov : SpriteCovers s (s.reg x) (s.reg y) n.val = Covers s.mem (s.effAddr 0) (s.reg x) (s.reg y) n.val :=
    funext fun c => propext (spriteCovers_iff ..)
  exact ⟨k, hk, hcov ▸ hcomp⟩

/-- A DRW that completes found its sprite to fit and the renderer to answer ok. -/
theorem spriteFits_of_exec_drw (h : exec (.drw x y n) s = .next t) :
    SpriteFits s (s.reg x) (s.reg y) n.val ∧ s.input.drawOk = true := by
  obtain ⟨k, hk, hpresent⟩ := settle_bind_next h
  obtain ⟨hdraw, _⟩ := present_ok hpresent
  exact ⟨(spriteFits_iff ..).2 (drawSprite_fits hk), hdraw⟩

end

/-! ## One draw -/

/-- A collision is reported exactly where a covered cell was lit. -/
theorem Composited.hit_iff {cov : Nat → Prop} {g : Grid} {k : Canvas}
    (h : Composited cov { grid := g, hit := false } k) : k.hit = true ↔ ∃ c, cov c ∧ Grid.lit g c = true :=
  h.hit.trans (or_iff_right Bool.false_ne_true)

/-- Settles O33: the compositor inverts the covered cells, and the flag it leaves in VF is its collision. -/
theorem drawXorsSprite : Obligations.DrawXorsSprite := by
  intro x y n s hfits hdraw
  obtain ⟨k, hk, hcomp⟩ := spriteCanvas_ok hfits
  have hvf : (s.drawn k).reg vf = flagByte k.hit := State.reg_setFlag_vf ..
  refine ⟨_, exec_drw_of_drawOk hk hdraw, hcomp.covered, hcomp.other, fun hlit => ?hit, fun hdark => ?noHit,
    fun r hr => State.reg_setFlag_of_ne _ _ hr, rfl, sameBut_drawn s k⟩
  case hit => rw [hvf, hcomp.hit_iff.2 hlit]; rfl
  case noHit =>
    have hmiss : k.hit = false := by
      refine Bool.eq_false_iff.2 fun hhit => ?_
      obtain ⟨c, hc, hlit⟩ := hcomp.hit_iff.1 hhit
      exact absurd ((hdark c hc).symm.trans hlit) (by decide)
    rw [hvf, hmiss]; rfl

/-- Settles O34: the compositor's two faults are DRW's, and a sprite that fits leaves only the renderer's. -/
theorem drawFaultsInOrder : Obligations.DrawFaultsInOrder := by
  intro x y n s
  refine ⟨fun row hrow hfits hout => ?memory, fun row hrow col hcol hfits hin hbefore hbit hout => ?grid,
    fun hfits hfail => ?renderer⟩
  case memory =>
    exact ⟨_, exec_drw_of_fault (drawSprite_memoryRange _ _ _ _ _ _ hrow ((spriteFits_iff ..).1 hfits) hout)⟩
  case grid =>
    exact ⟨_, exec_drw_of_fault
      (drawSprite_gridRange _ _ _ _ _ _ hrow ((spriteFits_iff ..).1 hfits) hin hcol hbefore hbit hout)⟩
  case renderer =>
    obtain ⟨k, hk, hcomp⟩ := spriteCanvas_ok hfits
    exact ⟨_, k.grid, exec_drw_of_drawFails hk hfail, rfl, hcomp.covered, hcomp.other⟩

/-! ## Two draws -/

section
variable {s t : State} (hmem : ∀ a, t.mem.read a = s.mem.read a) (hi : t.i = s.i)
include hmem hi

/-- Which cells a sprite covers is read from memory and I alone. -/
theorem spriteCovers_congr (vx vy : RegVal) (n c : Nat) : SpriteCovers t vx vy n c ↔ SpriteCovers s vx vy n c := by
  simp only [SpriteCovers, State.effAddr, hmem, hi]

/-- Whether a sprite fits is read from memory and I alone. -/
theorem spriteFits_congr (vx vy : RegVal) (n : Nat) : SpriteFits t vx vy n ↔ SpriteFits s vx vy n := by
  simp only [SpriteFits, State.effAddr, hmem, hi]

end

/-- A sprite that fits covers only cells of the grid. -/
theorem SpriteCovers.lt_gridCells {s : State} {vx vy : RegVal} {n c : Nat} (h : SpriteCovers s vx vy n c)
    (hfits : SpriteFits s vx vy n) : c < Config.gridCells := by
  obtain ⟨row, hrow, col, hcol, hbit, rfl⟩ := h
  obtain ⟨_, hcells⟩ := hfits row hrow
  exact hcells col hcol hbit

/-- Settles O35: the first draw leaves memory, I and the input, so the second draws the same sprite and inverts the
same cells again. -/
theorem drawTwiceRestores : Obligations.DrawTwiceRestores := by
  intro x y n s t h hx hy
  obtain ⟨hfits, hdraw⟩ := spriteFits_of_exec_drw h
  obtain ⟨t', ht', hinverted, hkept, _, _, _, _, hframe⟩ := drawXorsSprite x y n s hfits hdraw
  obtain rfl : t = t' := Host.Outcome.next.inj (h.symm.trans ht')
  have hmem : ∀ a, t.mem.read a = s.mem.read a := hframe .mem (by decide)
  have hi : t.i = s.i := hframe .i (by decide)
  have hinput : t.input = s.input := by
    rw [State.input, hframe .inputs (by decide), hframe .cycles (by decide), State.input]
  have hcov : ∀ c, SpriteCovers t (t.reg x) (t.reg y) n.val c ↔ SpriteCovers s (s.reg x) (s.reg y) n.val c :=
    fun c => by rw [hx, hy, spriteCovers_congr hmem hi]
  have hfits' : SpriteFits t (t.reg x) (t.reg y) n.val := by rwa [hx, hy, spriteFits_congr hmem hi]
  obtain ⟨u, hu, hinverted', hkept', hhit, hnoHit, _⟩ := drawXorsSprite x y n t hfits' (hinput ▸ hdraw)
  have hflipped : ∀ c, SpriteCovers s (s.reg x) (s.reg y) n.val c → Grid.lit t.grid c = !Grid.lit s.grid c :=
    fun c hc => hinverted c (hc.lt_gridCells hfits) hc
  refine ⟨u, hu, fun c hlt => ?restored, fun ⟨c, hc, hwas⟩ => ?hit, fun hall => ?noHit⟩
  case restored =>
    by_cases hc : SpriteCovers s (s.reg x) (s.reg y) n.val c
    · rw [hinverted' c hlt ((hcov c).2 hc), hflipped c hc, Bool.not_not]
    · rw [hkept' c hlt (mt (hcov c).1 hc), hkept c hlt hc]
  case hit => exact hhit ⟨c, (hcov c).2 hc, by rw [hflipped c hc, hwas]; rfl⟩
  case noHit => exact hnoHit fun c hc => by rw [hflipped c ((hcov c).1 hc), hall c ((hcov c).1 hc)]; rfl

end Sys2Proof.Machine

/-!
PROOFS of the family 44_input_timers.md. SKP and SKNP have an equation each for a key in Vx and for a value that
names none; the others are one write of one part of the state, whose frame is said for that write.
-/
namespace Sys2Proof.Machine

/-! ## SKP and SKNP (44_input_timers.md R175, R176) -/

theorem State.isKeyDown_eq (s : State) (k : Key) : s.isKeyDown k = decide (k ∈ s.input.keysDown) :=
  List.contains_eq_mem ..

section
variable {x : RegId} {s : State}

theorem exec_skp_key {k : Key} (h : (s.reg x).toNat = k.val) :
    exec (.skp x) s = .next (s.skipIf (s.isKeyDown k)) := by
  rw [exec, execSkp, keyOperand_key _ h]
  rfl

theorem exec_sknp_key {k : Key} (h : (s.reg x).toNat = k.val) :
    exec (.sknp x) s = .next (s.skipIf (!s.isKeyDown k)) := by
  rw [exec, execSknp, keyOperand_key _ h]
  rfl

theorem exec_skp_range (h : Config.nkeys ≤ (s.reg x).toNat) :
    exec (.skp x) s = .fault (.keyRange (s.faultSite (.skp x)) (s.reg x).toNat) := by
  rw [exec, execSkp, keyOperand_range _ h]
  rfl

theorem exec_sknp_range (h : Config.nkeys ≤ (s.reg x).toNat) :
    exec (.sknp x) s = .fault (.keyRange (s.faultSite (.sknp x)) (s.reg x).toNat) := by
  rw [exec, execSknp, keyOperand_range _ h]
  rfl

end

theorem State.toNat_pc_skipIf_isKeyDown (s : State) (k : Key) : (s.skipIf (s.isKeyDown k)).pc.toNat =
    if k ∈ s.input.keysDown then (s.pc.toNat + 2) % 65536 else s.pc.toNat := by
  simp only [State.toNat_pc_skipIf, State.isKeyDown_eq, decide_eq_true_eq]

theorem State.toNat_pc_skipIf_not_isKeyDown (s : State) (k : Key) : (s.skipIf (!s.isKeyDown k)).pc.toNat =
    if k ∈ s.input.keysDown then s.pc.toNat else (s.pc.toNat + 2) % 65536 := by
  simp only [State.toNat_pc_skipIf, State.isKeyDown_eq, Bool.not_eq_true', decide_eq_false_iff_not, ite_not]

/-- Settles O36: with a key in Vx both are a skip, by the key's state or its negation; any other value faults. -/
theorem keySkips : Obligations.KeySkips := fun _ s =>
  ⟨fun k hk => ⟨⟨_, exec_skp_key hk, State.toNat_pc_skipIf_isKeyDown s k, sameBut_skipIf s _⟩,
      ⟨_, exec_sknp_key hk, State.toNat_pc_skipIf_not_isKeyDown s k, sameBut_skipIf s _⟩⟩,
    fun hrange => ⟨⟨_, exec_skp_range hrange⟩, ⟨_, exec_sknp_range hrange⟩⟩⟩

/-! ## The timers (44_input_timers.md R177, R179, R180) -/

theorem sameBut_setDt (s : State) (b : BitVec Config.timerBits) : SameBut [.dt] s (s.setDt b) := by
  intro p hp
  cases p <;> simp_all [Same]

theorem sameBut_setSt (s : State) (b : BitVec Config.timerBits) : SameBut [.st] s (s.setSt b) := by
  intro p hp
  cases p <;> simp_all [Same]

theorem exec_ldFromDt (x : RegId) (s : State) : exec (.ldFromDt x) s = .next (s.setReg x s.dt) := by
  rw [exec, execLdFromDt, timerToReg_eq]

theorem exec_ldToDt (x : RegId) (s : State) : exec (.ldToDt x) s = .next (s.setDt (s.reg x)) := by
  rw [exec, execLdToDt, regToTimer_eq]

theorem exec_ldToSt (x : RegId) (s : State) : exec (.ldToSt x) s = .next (s.setSt (s.reg x)) := by
  rw [exec, execLdToSt, regToTimer_eq]

/-- Settles O37: the words by O5; each instruction is one write of one part. -/
theorem timerTransfers : Obligations.TimerTransfers := by
  intro x s
  obtain ⟨_, _, _, hfromDt, _, htoDt, htoSt, _⟩ := decodesFamiliesEAndF x 0
  exact ⟨hfromDt, htoDt, htoSt, ⟨_, exec_ldFromDt _ s, State.reg_setReg_same .., onlyRegs_setReg ..⟩,
    ⟨_, exec_ldToDt _ s, rfl, sameBut_setDt s _⟩, ⟨_, exec_ldToSt _ s, rfl, sameBut_setSt s _⟩⟩

/-! ## LD Vx,K (44_input_timers.md R178) -/

theorem sameBut_setStatus (s : State) (x : Status) : SameBut [.status] s (s.setStatus x) := by
  intro p hp
  cases p <;> simp_all [Same]

theorem State.toNat_reg_setReg_key (s : State) (x : RegId) (k : Key) :
    ((s.setReg x (BitVec.ofNat Config.regBits k.val)).reg x).toNat = k.val := by
  rw [State.reg_setReg_same, toNat_keyValue]

/-- Settles O38: a key is one register write, and no key is one write of the status. -/
theorem keyWait : Obligations.KeyWait := fun x s =>
  ⟨fun k hk => ⟨_, exec_ldKey_some hk, State.toNat_reg_setReg_key s x k, onlyRegs_setReg ..⟩,
    fun hnone => ⟨_, exec_ldKey_none hnone, rfl, sameBut_setStatus s _⟩⟩

end Sys2Proof.Machine

/-!
PROOFS of the family 60_exceptions.md. The tick is said once for each of its three ranges of elapsed time
(`tick_of_period`, `tick_of_toneOff`, `tick_of_early`); that no instruction but its writer touches a timer is read off
the shapes of `Effect`. A Step's fault is read off its site, which `step_fault` and `exec_fault` give.
-/
namespace Sys2Proof.Machine

/-! ## The tick (60_exceptions.md R211) -/

theorem State.ticks_iff (s : State) : s.ticks = true ↔ 1000000000 ≤ s.sinceTick := decide_eq_true_iff

section
variable {s : State}

/-- A tick that decrements. -/
theorem tick_of_period (h : 1000000000 ≤ s.sinceTick) : tick s = { s with
    dt := countDown s.dt
    st := countDown s.st
    lastTick := s.now
    clock := s.now
    events := s.events ++ if s.st = 0 then [] else [.toneStart] } := by
  have hticks : s.ticks = true := s.ticks_iff.2 h
  simp only [tick, State.tickEvents, if_pos hticks]

/-- A tick between the two bounds: the tone stops, and the sample is all that changes beside. -/
theorem tick_of_toneOff (h : 250000000 ≤ s.sinceTick) (hlt : s.sinceTick < 1000000000) :
    tick s = { s.emit .toneStop with clock := s.now } := by
  have hticks : ¬ s.ticks = true := mt s.ticks_iff.1 (by omega)
  simp only [tick, State.tickEvents, if_neg hticks, if_pos h]
  rfl

/-- A tick below both bounds takes the sample only. -/
theorem tick_of_early (h : s.sinceTick < 250000000) : tick s = { s with clock := s.now } := by
  have hticks : ¬ s.ticks = true := mt s.ticks_iff.1 (by omega)
  have hlate : ¬ Config.toneOff ≤ s.sinceTick := Nat.not_le_of_lt h
  simp only [tick, State.tickEvents, if_neg hticks, if_neg hlate, List.append_nil]

end

theorem sameBut_tick (s : State) : SameBut [.dt, .st, .lastTick, .events, .clock] s (tick s) := by
  intro p hp
  cases p <;> simp_all [Same]

theorem sameBut_clock (s : State) (n : Nat) : SameBut [.clock] s { s with clock := n } := by
  intro p hp
  cases p <;> simp_all [Same, State.reg]

/-- Settles O39, by the three ranges of the elapsed time. -/
theorem tickByElapsedTime : Obligations.TickByElapsedTime := by
  rintro s _ _ rfl rfl
  refine ⟨rfl, sameBut_tick s, fun h => ?period, fun h hlt => ?toneOff, fun h => ?early⟩
  case period =>
    rw [tick_of_period h]
    refine ⟨countDown_toNat _, countDown_toNat _, rfl, fun hst => ?_, fun hst => ?_⟩
    · have hne : s.st ≠ 0 := fun h0 => by simp [h0] at hst
      exact congrArg _ (if_neg hne)
    · have h0 : s.st = 0 := BitVec.eq_of_toNat_eq hst
      exact (congrArg _ (if_pos h0)).trans (List.append_nil _)
  case toneOff =>
    rw [tick_of_toneOff h hlt]
    exact ⟨rfl, (sameBut_emit s .toneStop).trans (sameBut_clock _ _)⟩
  case early =>
    rw [tick_of_early h]
    exact sameBut_clock s _

/-! ## The timers over a Step (60_exceptions.md R212) -/

section
variable {i : Instr} {s t : State} (e : Effect s i t)
include e

/-- Only LD DT,Vx writes the delay timer. -/
theorem Effect.dt_unchanged (hi : ∀ x, i ≠ .ldToDt x) : t.dt = s.dt := by
  cases e with
  | delay x => exact absurd rfl (hi x)
  | _ => simp

/-- Only LD ST,Vx writes the sound timer. -/
theorem Effect.st_unchanged (hi : ∀ x, i ≠ .ldToSt x) : t.st = s.st := by
  cases e with
  | sound x => exact absurd rfl (hi x)
  | _ => simp

theorem Effect.lastTick_unchanged : t.lastTick = s.lastTick := by
  cases e <;> simp

theorem Effect.clock_unchanged : t.clock = s.clock := by
  cases e <;> simp

end

/-- A timer that counts down if c falls by 0 or 1. -/
theorem toNat_countDown_if (c : Bool) (b : BitVec Config.timerBits) :
    (if c then countDown b else b).toNat ≤ b.toNat ∧ b.toNat ≤ (if c then countDown b else b).toNat + 1 := by
  cases c with
  | true => rw [if_pos rfl, countDown_toNat]; omega
  | false => exact ⟨Nat.le_refl _, Nat.le_succ _⟩

/-- The tick leaves the bytes fetched as they are. -/
theorem fetchWord_tick {s : State} {w : Word} (h : fetchWord s = .ok w) : fetchWord (tick s) = .ok w := by
  obtain ⟨hpc, rfl⟩ := fetchWord_ok h
  exact fetchWord_fits (s := tick s) hpc

/-- Settles O40: the tick lowers a timer by at most 1, and the instruction keeps what it does not write. -/
theorem timersFallByAtMostOne : Obligations.TimersFallByAtMostOne := by
  intro s t w i hs hw hi h
  rw [step_of_decoded hs (fetchWord_tick hw) hi] at h
  obtain ⟨u, hu, rfl⟩ := finishCycle_next h
  have heffect : Effect ((tick s).setPc (nextPc s.pc)) i u := exec_effect hu
  refine ⟨fun hdt => ?_, fun hst => ?_, ?_, ?_⟩
  · rw [State.endCycle_dt, heffect.dt_unchanged hdt]
    exact toNat_countDown_if s.ticks s.dt
  · rw [State.endCycle_st, heffect.st_unchanged hst]
    exact toNat_countDown_if s.ticks s.st
  · rw [State.endCycle_lastTick, State.endCycle_clock, heffect.lastTick_unchanged, heffect.clock_unchanged]
    exact (ite_eq_or_eq s.ticks s.now s.lastTick).symm
  · rw [State.endCycle_clock, heffect.clock_unchanged]
    exact Nat.le_add_right _ _

/-! ## What a faulting Step records (60_exceptions.md R191, R192) -/

section
variable {f : Fault} {site : FaultSite} (h : f.site = some site)
include h

theorem Fault.pc_of_site : f.pc = some site.pc := by rw [Fault.pc, h, Option.map_some]

theorem Fault.word_of_site : f.word = site.word := by rw [Fault.word, h, Option.bind_some]

end

/-- A fetch that faults reaches past memory. -/
theorem fetchWord_error_outside {s : State} {f : Fault} (h : fetchWord s = .error f) : 4096 ≤ s.pc.toNat + 1 := by
  by_contra hin
  rw [fetchWord_fits (Nat.lt_of_not_le hin)] at h
  injection h

/-- A Running core's Step where the fetched word decodes to no instruction. -/
theorem step_of_invalid {s : State} {w w' : Word} (hs : s.status = .running) (hw : fetchWord (tick s) = .ok w)
    (hi : decodeWord w = .invalid w') :
    step s = .fault (.invalidInstruction { pc := s.pc, word := some w', events := (tick s).events }) := by
  rw [step, stepByStatus, hs]
  simp only [cycle, hw, runWord, hi, tick_pc]

/-- Settles O43: the fetch lies inside memory. -/
theorem invalidWordFaults : Obligations.InvalidWordFaults := by
  rintro s _ hs hpc rfl hi
  exact step_of_invalid hs (fetchWord_fits (s := tick s) hpc) hi

/-- Every fault of a Running core's Step has a site: the fetch address, no word where the fetch faulted and else the
word fetched, and the tick's events before any others. -/
theorem step_fault_site {s : State} {f : Fault} (hs : s.status = .running) (h : step s = .fault f) :
    ∃ site es, f.site = some site ∧ site.pc = s.pc ∧ site.events = (tick s).events ++ es ∧
      (site.word = none ∧ 4096 ≤ s.pc.toNat + 1 ∨ ∃ w, fetchWord (tick s) = .ok w ∧ site.word = some w) := by
  obtain hfetch | ⟨w, w', hw, hi, rfl⟩ | ⟨w, i, hw, hi, hexec⟩ := step_fault hs h
  · have hout : 4096 ≤ s.pc.toNat + 1 := fetchWord_error_outside (s := tick s) hfetch
    exact ⟨_, [], fetchWord_error hfetch, rfl, (List.append_nil _).symm, .inl ⟨rfl, hout⟩⟩
  · obtain ⟨rfl, _⟩ := faithful_of_decodeWord hi
    exact ⟨_, [], rfl, rfl, (List.append_nil _).symm, .inr ⟨_, hw, rfl⟩⟩
  · obtain ⟨site, es, hsite, hpc, hword, hevents⟩ := exec_fault hexec
    obtain ⟨rfl, _⟩ := faithful_of_decodeWord hi
    exact ⟨site, es, hsite, hpc.trans (nextPc_sub_two s.pc), hevents, .inr ⟨_, hw, hword⟩⟩

/-- Settles O45: the record's fields are those of the fault's site. -/
theorem faultRecordsFetch : Obligations.FaultRecordsFetch := by
  intro s f hs h
  obtain ⟨site, es, hsite, hpc, hevents, hword⟩ := step_fault_site hs h
  refine ⟨hpc ▸ Fault.pc_of_site hsite, ?_, site, es, hsite, hevents⟩
  rw [Fault.word_of_site hsite]
  rcases hword with hnone | ⟨w, hw, hword⟩
  · exact .inl hnone
  · obtain ⟨hin, rfl⟩ := fetchWord_ok hw
    exact .inr ⟨hin, hword⟩

/-! ## The transaction that faults (60_exceptions.md R201, R203) -/

theorem transact_of_fault {s : State} {a : StepInput} {f : Fault} (hs : s.status = .running)
    (h : step (s.withInput a) = .fault f) : transact s a = (s.enterFault f, .faults f) := by
  rw [transact_of_running a hs, h, conclude]

/-- Fault entry keeps the events of the fault's site. -/
theorem State.events_enterFault (s : State) {f : Fault} {site : FaultSite} (h : f.site = some site) :
    (s.enterFault f).events = site.events := by
  rw [State.enterFault, h, Option.map_some, Option.getD_some]

/-- Settles O46: the state after the transaction is the one fault entry leaves, which is Faulted. -/
theorem faultIsTerminal : Obligations.FaultIsTerminal := by
  intro s a b f site hs h hsite
  rw [transact_of_fault hs h]
  exact ⟨rfl, rfl, s.events_enterFault hsite, transact_of_faulted b rfl⟩

end Sys2Proof.Machine

/-!
PROOFS of the family 70_reset_and_hazards.md. Reset of an image that fits is three writes to the reset state, so its
frame is theirs, and what memory reads is the image at 512 and the reset memory around it.
-/
namespace Sys2Proof.Machine

/-! ## Memory with an image in it -/

section
variable {m : Memory} {a : Nat} {bs : List Byte} (hmem : m.rising = true)
include hmem

/-- Inside an image written at a, memory reads as the image. -/
theorem Memory.read_writeAll_inside {k : Nat} (hk : k < bs.length) : (m.writeAll a bs).read (a + k) = bs[k] := by
  rw [Memory.read_writeAll hmem, if_pos (Nat.le_add_right a k), Nat.add_sub_cancel_left, List.getD_eq_getElem _ _ hk]

/-- Before and past the image, memory reads as before. -/
theorem Memory.read_writeAll_outside {b : Nat} (hb : b < a ∨ a + bs.length ≤ b) :
    (m.writeAll a bs).read b = m.read b := by
  rw [Memory.read_writeAll hmem]
  rcases hb with hbefore | hpast
  · exact if_neg (Nat.not_le_of_lt hbefore)
  · have hlen : bs.length ≤ b - a := Nat.le_sub_of_add_le' hpast
    rw [List.getD_eq_default _ _ hlen, ite_self]

end

/-! ## Reset of a program (70_reset_and_hazards.md R230, R231) -/

/-- The state Reset answers for an image that fits. -/
def State.withProgram (prog : List Byte) (now : Nat) : State :=
  { State.reset.setMem (State.reset.mem.writeAll Config.progBase prog) with lastTick := now, clock := now }

theorem load_fits {prog : List Byte} (h : prog.length ≤ 3584) (now : Nat) :
    load prog now = .next (State.withProgram prog now) := if_pos h

theorem load_tooLarge {prog : List Byte} (h : 3584 < prog.length) (now : Nat) :
    load prog now = .fault (.programTooLarge prog.length) := if_neg (Nat.not_le_of_lt h)

theorem sameBut_lastTick (s : State) (n : Nat) : SameBut [.lastTick] s { s with lastTick := n } := by
  intro p hp
  cases p <;> simp_all [Same, State.reg]

theorem sameBut_lastTick_clock (s : State) (n : Nat) :
    SameBut [.lastTick, .clock] s { s with lastTick := n, clock := n } :=
  (sameBut_lastTick s n).trans (sameBut_clock { s with lastTick := n } n)

theorem sameBut_withProgram (prog : List Byte) (now : Nat) :
    SameBut [.mem, .lastTick, .clock] State.reset (State.withProgram prog now) :=
  (sameBut_setMem State.reset _).trans (sameBut_lastTick_clock (State.reset.setMem _) now)

/-- Settles O54: the memory Reset leaves is canonical as in every state Reset answers, and reads as the reset memory
with the image written at 512. -/
theorem loadPlacesProgram : Obligations.LoadPlacesProgram := by
  refine fun prog now => ⟨fun hfits => ?fits, fun hlarge => load_tooLarge hlarge now⟩
  case fits =>
    have hload := load_fits hfits now
    have hmem : State.reset.mem.rising = true := rfl
    exact ⟨_, hload, (inv_of_load hload).memWf, fun k hk => Memory.read_writeAll_inside hmem hk,
      fun a ha => Memory.read_writeAll_outside hmem ha, rfl, rfl, sameBut_withProgram prog now⟩

/-! ## The reset state (70_reset_and_hazards.md R232) -/

@[simp] theorem State.reg_reset (r : RegId) : State.reset.reg r = 0 := Vector.getElem_replicate ..

/-- Reset memory lists nothing, so it reads as unloaded. -/
theorem State.read_mem_reset (a : Nat) : State.reset.mem.read a = unloadedByte a := rfl

/-- Past the font table unloaded memory is zero (20_memory.md R53). -/
theorem unloadedByte_past_font {a : Nat} (h : 80 ≤ a) : unloadedByte a = 0 :=
  if_neg fun ⟨_, hfont⟩ => Nat.not_lt_of_le h hfont

/-- Settles O55, field by field: memory reads as the font table and zeros, and Reset of no bytes writes nothing. -/
theorem resetState : Obligations.ResetState := by
  refine ⟨rfl, rfl, Grid.lit_zero, rfl, rfl, State.reg_reset, rfl, rfl, rfl, fun d k hd hk => ?font,
    fun a ha => ?zeros, load_fits (Nat.zero_le _) 0⟩
  case font =>
    rw [State.read_mem_reset, Nat.mul_comm]
    exact unloadedByte_glyph hd hk
  case zeros => exact unloadedByte_past_font ha

end Sys2Proof.Machine

/-!
PROOFS of the family of fixed words (95_test_vectors.md W1, W5, E1 to E22). Each word the tables give an operation is
that operation's encoding, and each they call invalid has one of the forms of R91.
-/
namespace Sys2Proof

/-- Settles O9: fifteen words are encodings of well-formed operations. Of the other four, 5121 has an n other than 0,
8008 one of family 8's invalid n, and F01F and FFFF a kk that family F does not name. -/
theorem specWordsDecode : Obligations.SpecWordsDecode :=
  ⟨roundTrip (.rnd 0xA 0xBC) rfl, roundTrip (.addReg 0xA 0xB) rfl,
    roundTrip .cls rfl, roundTrip .ret rfl, roundTrip (.sys 0x000) rfl,
    roundTrip (.sys 0x0E1) rfl, roundTrip (.sys 0x1EE) rfl,
    roundTrip (.seReg 1 2) rfl, decodeWord_invalid (.inl (by decide)),
    roundTrip (.sneReg 0xA 0xB) rfl, decodeWord_invalid (.inr (.inl (by decide))),
    roundTrip (.shl 0 0) rfl, roundTrip (.skp 0) rfl,
    roundTrip (.sknp 0) rfl, decodeWord_invalid (.inr (.inr (.inr (by decide)))),
    roundTrip (.loadRegs 0) rfl, decodeWord_invalid (.inr (.inr (.inr (by decide)))),
    roundTrip (.drw 0 0 0) rfl, roundTrip (.jpV0 0x123) rfl⟩

end Sys2Proof
